-- ==== Sys2Proof/Word.lean ====
section
/-! DEFINITION. The machine's word and byte (00_scope R8). -/

namespace Sys2Proof

/-- A register, a length or checksum field, the CRC register: 32 bits (00_scope R8). -/
abbrev Word := BitVec 32

/-- 8 bits (00_scope R8). -/
abbrev Byte := BitVec 8

end Sys2Proof
end

