-- ==== Sys2Proof/Config.lean ====
section
/-! DEFINITION. The parameters of 00_scope R7, and the free values of the spec (its "draws under no law"). -/

namespace Sys2Proof

/-- The CRC datapath form, the only option of the hardware (00_scope R3). -/
inductive CrcImpl where
  | table
  | bitSerial
  deriving DecidableEq, Repr

/-- The parameters the model takes as arguments (00_scope R7). Their constraints are `Config.legal` in
WellFormed.lean. -/
structure Config where
  /-- BASE: byte address of the register window on the host bus. -/
  base : Nat
  /-- IBUF_OFFSET: offset of the input-buffer window from BASE. -/
  ibufOffset : Nat
  /-- OBUF_OFFSET: offset of the output-buffer window from BASE. -/
  obufOffset : Nat
  /-- IBUF_SIZE: bytes in IBUF. -/
  ibufSize : Nat
  /-- OBUF_SIZE: bytes in OBUF. -/
  obufSize : Nat
  /-- MAX_CHUNKS: greatest number of chunks the store holds. -/
  maxChunks : Nat
  /-- STORE_BYTES: greatest total payload bytes the store holds. -/
  storeBytes : Nat
  /-- SIGNATURE: the 8-byte container signature. -/
  signature : List Byte
  /-- CRC_IMPL. -/
  crcImpl : CrcImpl
  deriving DecidableEq, Repr

/-- The configuration of 95_test_vectors section 0 (sizes, capacities, default SIGNATURE of 00_scope R7). The spec
leaves BASE, the two offsets and CRC_IMPL symbolic there: their values are a DESIGN CHOICE (log 3; safe, because every
statement quantifies over the configuration). -/
def Config.vectors : Config where
  base := 0x40000000
  ibufOffset := 0x1000
  obufOffset := 0x2000
  ibufSize := 4096
  obufSize := 4096
  maxChunks := 16
  storeBytes := 4096
  signature := [0x89, 0x50, 0x4E, 0x47, 0x0D, 0x0A, 0x1A, 0x0A]
  crcImpl := .table

/-- FREE VALUE (log 4): the byte of IBUF at an offset after the n-th hardware reset, until something writes it
(70_reset R271: "any value, which may differ from byte to byte and from reset to reset"). -/
opaque Config.ibufReset : Nat → Nat → Byte

/-- FREE VALUE (log 4): the byte of OBUF at an offset after the n-th hardware reset (70_reset R271). -/
opaque Config.obufReset : Nat → Nat → Byte

/-- FREE VALUE (log 5): what the n-th drawing host read returns for a result register read while BUSY
(70_reset R282: "a draw under no law"). -/
opaque Config.busyWord : Nat → Word

/-- FREE VALUE (log 5): what the n-th drawing host read returns for the OBUF byte at an offset while BUSY
(70_reset R282). -/
opaque Config.busyByte : Nat → Nat → Byte

/-- FREE VALUE (log 15): ERR_INFO1 of StoreFull when the payload total that would result does not fit in 32 bits: the
spec says that every byte count fits (00_scope R7), and states no value for the one that does not. -/
opaque Config.overwideTotal : Nat → Word

/-- FREE VALUE (log 17): the TLEN that `tagtext` writes for a text of 2^32 bytes or more: TLEN is the text's byte length,
a u32 (30_encoding R95, R105), and the spec states no word for such a length. -/
opaque Config.overlongText : Nat → Word

/-- FREE VALUE (log 8): what the n-th drawing host read returns when no byte of it is in a window of this block
(20_memory R60: "whatever else the bus holds is outside this spec"). -/
opaque Config.outsideBus : Nat → Word

end Sys2Proof
end

