-- ==== Sys2Proof/Syntax.lean ====
section
/-! DEFINITION. The 17 commands of the opcode map (30_encoding R92). -/

namespace Sys2Proof

/-- A command. The format CMD32 has no operand field: operands are in ARG0, TLEN, IOFF and ILEN (30_encoding R90, R91),
so a constructor has no argument. -/
inductive Instr where
  | nop
  | crcInit
  | crcByte
  | crcBuf
  | crcLoad
  | tagBytes
  | tagText
  | chunkEncode
  | chunkDecode
  | pngParse
  | pngSerialize
  | pngClear
  | pngAppend
  | pngRemove
  | pngFind
  | chunkRead
  | softReset
  deriving DecidableEq, Repr

end Sys2Proof
end

