-- ==== Sys2Proof/WellFormed.lean ====
section
/-! DEFINITION. What a well-formed command and a legal configuration are. -/

namespace Sys2Proof

/-- A command has no operand field (30_encoding R90), so every term of `Instr` is well-formed. What can be ill-formed is
the issued word (the decoder refuses it) and the configuration (`Config.legal`). -/
def Instr.wellFormed : Instr → Bool
  | .nop | .crcInit | .crcByte | .crcBuf | .crcLoad | .tagBytes | .tagText | .chunkEncode | .chunkDecode
  | .pngParse | .pngSerialize | .pngClear | .pngAppend | .pngRemove | .pngFind | .chunkRead | .softReset => true

/-- BASE is a multiple of 4 (00_scope R7). -/
def Config.baseAligned (c : Config) : Bool := c.base % 4 == 0

/-- Both buffer windows start at or after the end of the register window (00_scope R7: "≥ 0x100"). -/
def Config.offsetsClear (c : Config) : Bool := decide (0x100 ≤ c.ibufOffset) && decide (0x100 ≤ c.obufOffset)

/-- The buffer windows are disjoint (00_scope R7; 20_memory R63). -/
def Config.windowsDisjoint (c : Config) : Bool :=
  decide (c.ibufOffset + c.ibufSize ≤ c.obufOffset) || decide (c.obufOffset + c.obufSize ≤ c.ibufOffset)

/-- 16 ≤ IBUF_SIZE ≤ 2^31 and 16 ≤ OBUF_SIZE ≤ 2^31 (00_scope R7). -/
def Config.sizesInRange (c : Config) : Bool :=
  decide (16 ≤ c.ibufSize) && decide (c.ibufSize ≤ 2 ^ 31) && decide (16 ≤ c.obufSize) && decide (c.obufSize ≤ 2 ^ 31)

/-- 1 ≤ MAX_CHUNKS ≤ 2^24 and STORE_BYTES ≤ 2^31 (00_scope R7). -/
def Config.capacityInRange (c : Config) : Bool :=
  decide (1 ≤ c.maxChunks) && decide (c.maxChunks ≤ 2 ^ 24) && decide (c.storeBytes ≤ 2 ^ 31)

/-- SIGNATURE has 8 bytes (00_scope R7). -/
def Config.signatureLength (c : Config) : Bool := c.signature.length == 8

/-- The constraints of 00_scope R7, all of them. -/
def Config.legal (c : Config) : Bool :=
  c.baseAligned && c.offsetsClear && c.windowsDisjoint && c.sizesInRange && c.capacityInRange && c.signatureLength

end Sys2Proof
end

