-- ==== Sys2Proof/Decode.lean ====
section
/-! DEFINITION. The decoder of 30_encoding R101, total on every word and rejecting by name, and after it the encoder,
written from the opcode map of R92. -/

namespace Sys2Proof

/-- Why a word is no command (30_encoding R93). -/
inductive DecodeReject where
  /-- Bits 31:8 are not all zero. -/
  | mbzNotZero
  /-- Bits 7:0 are no OPC of the opcode map. -/
  | unassignedOpcode
  deriving DecidableEq, Repr

/-- The command an OPC names (30_encoding R101). -/
def decodeOpcode (opc : BitVec 8) : Option Instr :=
  match opc.toNat with
  | 0x00 => some .nop
  | 0x01 => some .crcInit
  | 0x02 => some .crcByte
  | 0x03 => some .crcBuf
  | 0x04 => some .crcLoad
  | 0x10 => some .tagBytes
  | 0x11 => some .tagText
  | 0x20 => some .chunkEncode
  | 0x21 => some .chunkDecode
  | 0x30 => some .pngParse
  | 0x31 => some .pngSerialize
  | 0x32 => some .pngClear
  | 0x33 => some .pngAppend
  | 0x34 => some .pngRemove
  | 0x35 => some .pngFind
  | 0x36 => some .chunkRead
  | 0xFF => some .softReset
  | _ => none

/-- `decode_cmd` of 30_encoding R101. -/
def decodeCmd (w : Word) : Except DecodeReject Instr :=
  if w.extractLsb' 8 24 ≠ 0 then .error .mbzNotZero
  else
    match decodeOpcode (w.extractLsb' 0 8) with
    | some i => .ok i
    | none => .error .unassignedOpcode

/-- The OPC of a command (30_encoding R92). -/
def Instr.opcode : Instr → BitVec 8
  | .nop => 0x00
  | .crcInit => 0x01
  | .crcByte => 0x02
  | .crcBuf => 0x03
  | .crcLoad => 0x04
  | .tagBytes => 0x10
  | .tagText => 0x11
  | .chunkEncode => 0x20
  | .chunkDecode => 0x21
  | .pngParse => 0x30
  | .pngSerialize => 0x31
  | .pngClear => 0x32
  | .pngAppend => 0x33
  | .pngRemove => 0x34
  | .pngFind => 0x35
  | .chunkRead => 0x36
  | .softReset => 0xFF

/-- The command word: OPC in bits 7:0, MBZ zero in bits 31:8 (30_encoding R90). -/
def encode (i : Instr) : Word := 0#24 ++ i.opcode

/-- The command of a table word: `nbits` bits of `w`, every higher bit 0. A command is one 32-bit word written to CMD as
a whole, so no byte order enters; a longer word is no command (30_encoding R90: "A command has no other length"). -/
def decodeTableWord (nbits w : Nat) : Option Instr :=
  if w % 2 ^ nbits < 2 ^ 32 then
    match decodeCmd (BitVec.ofNat 32 (w % 2 ^ nbits)) with
    | .ok i => some i
    | .error _ => none
  else none

end Sys2Proof
end

