-- ==== Sys2Proof/Machine/State.lean ====
section
/-! DEFINITION. The state of the chunk engine (10_state), the data of its two agents, and the state after reset. -/

namespace Sys2Proof.Machine

/-- A 4-byte tag, byte 0 first in the stream (00_scope R16; 40_tag R121). -/
structure Tag where
  b0 : Byte
  b1 : Byte
  b2 : Byte
  b3 : Byte
  deriving DecidableEq, Repr

/-- A chunk value (tag, payload, crc); its length is len(payload) and is not stored (42_chunk R161). -/
structure Chunk where
  tag : Tag
  payload : List Byte
  crc : Word
  deriving DecidableEq, Repr

/-- The written bytes of a buffer as (offset, byte) pairs, offsets strictly rising (`Memory.wf` in Ops.lean). An unlisted
offset holds NO written byte: it reads as `none` here, and the buffer's reader then answers the free value of 70_reset R271
(log 4). -/
abbrev Memory := List Host.Cell

/-- Width of a host bus access (20_memory R67, R70). -/
inductive Width where
  | w8
  | w16
  | w32
  deriving DecidableEq, Repr

/-- One host statement left to do (30_encoding R106; `wait` is the polling loop of R104). -/
inductive HostOp where
  | read (width : Width) (addr : Nat)
  | write (width : Width) (addr : Nat) (data : Word)
  | wait
  deriving DecidableEq, Repr

/-- Who moves next: the host does one bus transaction, the engine takes its completion step (00_scope R15), or the
platform asserts the reset input (70_reset R270). -/
inductive Turn where
  | host
  | engine
  | reset
  deriving DecidableEq, Repr

/-- The reasons this machine can stop with a fault: none. The block has no traps (60_exceptions R240): every issued word
completes, and an error completes like a success, with its report. Nobody raises a fault, which is safe: no behaviour of
the hardware is cut off. -/
inductive Fault
  deriving DecidableEq, Repr

/-- The reasons this machine can refuse. -/
inductive Refusal where
  /-- Raised only by an arm of `exec` that has no meaning yet; no arm of this model is one. Safe: the run stops. -/
  | notModelled (mnemonic : String)
  deriving DecidableEq, Repr

/-- The registers of 10_state R22, STORE, the two buffers, the parameters, and the data of the agents. Registers that are
"not stored" are read through `readReg`: ID (R21), ERR (R24), CRC_RESULT (R29), TAG_FLAGS (R31), NCHUNKS (R33). -/
structure State where
  /-- The parameters (00_scope R7); no step writes them (log 3). -/
  cfg : Config
  /-- CTRL bit 0, IRQ_EN (10_state R23). -/
  irqEn : Bool
  /-- STATUS bit 0, BUSY (10_state R24). -/
  busy : Bool
  /-- STATUS bit 1, DONE. -/
  done : Bool
  /-- STATUS bit 3, OVR. -/
  ovr : Bool
  /-- STATUS bits 15:8, ERRCODE. -/
  errCode : BitVec 8
  /-- CMD, the last issued word (10_state R25); while BUSY it is the word `pending` of R26 (log 10). -/
  cmd : Word
  arg0 : Word
  tlen : Word
  ioff : Word
  ilen : Word
  /-- CRC_STATE (10_state R28). -/
  crcState : Word
  /-- TAG (10_state R30). -/
  tag : Word
  /-- LEN and CHK (10_state R32). -/
  len : Word
  chk : Word
  /-- OUT_LEN, INDEX, FOUND bit 0 (10_state R33). -/
  outLen : Word
  index : Word
  found : Bool
  /-- ERR_INFO0, ERR_INFO1, ERR_POS (10_state R35). -/
  errInfo0 : Word
  errInfo1 : Word
  errPos : Word
  /-- STORE (10_state R34). -/
  store : List Chunk
  /-- The bytes of IBUF and OBUF written since the last hardware reset (10_state R38). -/
  ibuf : Memory
  obuf : Memory
  /-- MODEL'S OWN: how many hardware resets there were; picks the buffers' free bytes (log 4). -/
  resets : Nat
  /-- MODEL'S OWN: how many host reads there were; picks the free value of the next one (log 5). -/
  draws : Nat
  /-- MODEL'S OWN: the host's remaining transactions, in program order (20_memory R74; log 2). -/
  host : List HostOp
  /-- MODEL'S OWN: who moves next; empty: the engine if BUSY, else the host (log 1). -/
  turns : List Turn
  /-- MODEL'S OWN: what the host's reads returned, newest first (log 6). -/
  reads : List Word
  deriving DecidableEq, Repr

/-- The machine right after reset (10_state R41), with the configuration of 95_test_vectors section 0 (log 3) and no host
program placed (log 2). -/
def State.reset : State where
  cfg := Config.vectors
  irqEn := false
  busy := false
  done := false
  ovr := false
  errCode := 0
  cmd := 0
  arg0 := 0
  tlen := 0
  ioff := 0
  ilen := 0
  crcState := 0xFFFFFFFF
  tag := 0
  len := 0
  chk := 0
  outLen := 0
  index := 0xFFFFFFFF
  found := false
  errInfo0 := 0
  errInfo1 := 0
  errPos := 0
  store := []
  ibuf := []
  obuf := []
  resets := 0
  draws := 0
  host := []
  turns := []
  reads := []

end Sys2Proof.Machine
end

