-- ==== Sys2Proof/Machine/Ops.lean ====
section
/-! DEFINITION. The shared operations: byte order, the buffers' memory, the error report and the completion of a command
(the block's counterpart of taking an exception), issue (the counterpart of the return), and the hardware reset. -/

namespace Sys2Proof.Machine

/-! ## Byte sequences (00_scope R9, R11) -/

/-- `s[i..j)`, bytes i to j-1 (00_scope R9). -/
def slice (s : List Byte) (i j : Nat) : List Byte := (s.drop i).take (j - i)

/-- `be32` of the first four bytes: byte 0 most significant (00_scope R11; 20_memory R65). A missing byte counts as 0; every
caller gives four bytes, but for the zero-padded info words of 43_container R192. -/
def be32 (s : List Byte) : Word := s.getD 0 0 ++ s.getD 1 0 ++ s.getD 2 0 ++ s.getD 3 0

/-- `be32bytes(v)`: [v[31:24], v[23:16], v[15:8], v[7:0]] (00_scope R11). -/
def be32bytes (v : Word) : List Byte :=
  [v.extractLsb' 24 8, v.extractLsb' 16 8, v.extractLsb' 8 8, v.extractLsb' 0 8]

/-- `pack(t)`: byte 0 in bits 31:24 (00_scope R11; 30_encoding R94). -/
def Tag.pack (t : Tag) : Word := t.b0 ++ t.b1 ++ t.b2 ++ t.b3

/-- `unpack(w)` (30_encoding R94). -/
def Tag.unpack (w : Word) : Tag :=
  ⟨w.extractLsb' 24 8, w.extractLsb' 16 8, w.extractLsb' 8 8, w.extractLsb' 0 8⟩

/-- The tag's bytes in stream order. -/
def Tag.bytes (t : Tag) : List Byte := [t.b0, t.b1, t.b2, t.b3]

/-- The tag that a sequence of four bytes spells. -/
def Tag.ofBytes (s : List Byte) : Tag := ⟨s.getD 0 0, s.getD 1 0, s.getD 2 0, s.getD 3 0⟩

/-- A count in a 32-bit register: every count of the block's own fits under the constraints of 00_scope R7 (log 12). -/
def count (n : Nat) : Word := BitVec.ofNat 32 n

/-! ## The buffers' memory -/

/-- The canonical form: offsets strictly rising. An unlisted offset reads as `none`, and no entry is `none`. -/
abbrev Memory.wf (m : Memory) : Prop := m.Pairwise (fun p q => p.1 < q.1)

/-- The byte written at an offset, if any was. -/
def Memory.read : Memory → Nat → Option Byte
  | [], _ => none
  | (k, v) :: m, a => if k = a then some v else Memory.read m a

/-- Write one byte, keeping the offsets rising. -/
def Memory.write : Memory → Nat → Byte → Memory
  | [], a, v => [(a, v)]
  | (k, x) :: m, a, v =>
    if a < k then (a, v) :: (k, x) :: m
    else if a = k then (a, v) :: m
    else (k, x) :: Memory.write m a v

/-- Write the bytes of a sequence at rising offsets from `a`. -/
def Memory.writeSeq : Memory → Nat → List Byte → Memory
  | m, _, [] => m
  | m, a, b :: bs => Memory.writeSeq (Memory.write m a b) (a + 1) bs

/-- `IBUF[a]` (00_scope R10): the written byte, or the free value of 70_reset R271. -/
def State.ibufByte (s : State) (a : Nat) : Byte := (Memory.read s.ibuf a).getD (Config.ibufReset s.resets a)

/-- `OBUF[a]` (00_scope R10): the written byte, or the free value of 70_reset R271. -/
def State.obufByte (s : State) (a : Nat) : Byte := (Memory.read s.obuf a).getD (Config.obufReset s.resets a)

/-- `MemRead(IBUF, a, n)` (00_scope R10). -/
def State.ibufRange (s : State) (a n : Nat) : List Byte := (List.range' a n).map s.ibufByte

/-- Every OBUF-writing command writes its bytes from OBUF[0] and their count to OUT_LEN (30_encoding R100). -/
def State.writeOutput (s : State) (out : List Byte) : State :=
  { s with obuf := Memory.writeSeq s.obuf 0 out, outLen := count out.length }

/-! ## Errors -/

/-- The error kinds of 60_exceptions R241 that this block raises. InvalidUtf8 (code 5) is reserved and never raised. -/
inductive ErrKind where
  | invalidTagBytes
  | truncatedInput
  | invalidChunkLength
  | invalidChunkCrc
  | invalidSignature
  | chunkNotFound
  | illegalCommand
  | rangeError
  | outputOverflow
  | storeFull
  | indexRange
  deriving DecidableEq, Repr

/-- The error code (60_exceptions R241). -/
def ErrKind.code : ErrKind → BitVec 8
  | .invalidTagBytes => 1
  | .truncatedInput => 2
  | .invalidChunkLength => 3
  | .invalidChunkCrc => 4
  | .invalidSignature => 6
  | .chunkNotFound => 7
  | .illegalCommand => 8
  | .rangeError => 9
  | .outputOverflow => 10
  | .storeFull => 11
  | .indexRange => 12

/-- `E(code, info0, info1)` with its position (00_scope R10, R13; 60_exceptions R243). -/
structure CmdError where
  kind : ErrKind
  info0 : Word
  info1 : Word
  pos : Word
  deriving DecidableEq, Repr

/-! ## Issue and completion (10_state R26, R27; 60_exceptions R246, R247) -/

/-- STATUS.ERR, always (ERRCODE ≠ 0) (10_state R24). -/
def State.err (s : State) : Bool := s.errCode != 0

/-- `pending` (10_state R26): the word the engine's one enabled step executes. CMD cannot change while BUSY, so it is the
word in CMD (log 10). -/
def State.pending (s : State) : Option Word := if s.busy then some s.cmd else none

/-- Taking an error, the block's counterpart of taking an exception (60_exceptions R246): STATUS and the three ERR
registers are written, everything else keeps its value. -/
def State.raise (s : State) (e : CmdError) : State :=
  { s with
    busy := false
    done := true
    errCode := e.kind.code
    errInfo0 := e.info0
    errInfo1 := e.info1
    errPos := e.pos }

/-- Completion of a command that raises nothing (60_exceptions R247); `s` holds its results. -/
def State.succeed (s : State) : State := { s with busy := false, done := true, errCode := 0 }

/-- A command's completion step (10_state R27): its results, or on an error its report over the state at issue
(all-or-nothing, 60_exceptions R246). -/
def State.complete (s : State) (r : Except CmdError State) : State :=
  match r with
  | .error e => s.raise e
  | .ok t => t.succeed

/-- Issue of a word (10_state R26); also what stands for the return from an exception: it clears DONE and ERRCODE and
leaves the info registers readable (60_exceptions R249). -/
def State.issue (s : State) (w : Word) : State :=
  { s with cmd := w, busy := true, done := false, errCode := 0 }

/-! ## Reset -/

/-- Every register at its value of 10_state R41 and STORE empty; the buffers, the parameters and the agents' data are not
touched. -/
def State.resetRegisters (s : State) : State :=
  { s with
    irqEn := false
    busy := false
    done := false
    ovr := false
    errCode := 0
    cmd := 0
    arg0 := 0
    tlen := 0
    ioff := 0
    ilen := 0
    crcState := 0xFFFFFFFF
    tag := 0
    len := 0
    chk := 0
    outLen := 0
    index := 0xFFFFFFFF
    found := false
    errInfo0 := 0
    errInfo1 := 0
    errPos := 0
    store := [] }

/-- Hardware reset (70_reset R270, R271): any command in flight is abandoned, and every buffer byte is a fresh free value.
The host and the schedule are outside the block and keep theirs (log 13). -/
def State.hwReset (s : State) : State :=
  { s.resetRegisters with ibuf := [], obuf := [], resets := s.resets + 1 }

end Sys2Proof.Machine
end

