-- ==== Sys2Proof/Machine/Flags.lean ====
section
/-! DEFINITION. Every flag the spec computes: the letter test and the tag properties (40_tag R120 to R124), the STATUS
word (10_state R24), and the interrupt output (60_exceptions R252). -/

namespace Sys2Proof.Machine

/-- ASCII letter (40_tag R120). -/
def isLetter (b : Byte) : Bool :=
  (decide (0x41 ≤ b) && decide (b ≤ 0x5A)) || (decide (0x61 ≤ b) && decide (b ≤ 0x7A))

/-- All four bytes are letters: what 40_tag R121 accepts. -/
def Tag.letters (t : Tag) : Bool := isLetter t.b0 && isLetter t.b1 && isLetter t.b2 && isLetter t.b3

/-- Uppercase first byte (40_tag R122). -/
def Tag.isCritical (t : Tag) : Bool := (t.b0 &&& 0x20) == 0

/-- Uppercase second byte (40_tag R122). -/
def Tag.isPublic (t : Tag) : Bool := (t.b1 &&& 0x20) == 0

/-- Uppercase third byte (40_tag R122). -/
def Tag.isReservedBitValid (t : Tag) : Bool := (t.b2 &&& 0x20) == 0

/-- Lowercase fourth byte (40_tag R122). -/
def Tag.isSafeToCopy (t : Tag) : Bool := (t.b3 &&& 0x20) != 0

/-- Validity is the reserved-bit check, independent of the letter test (40_tag R123). -/
def Tag.isValid (t : Tag) : Bool := t.isReservedBitValid

/-- TAG_FLAGS: bit 0 CRITICAL, 1 PUBLIC, 2 RESERVED_VALID, 3 SAFE_TO_COPY, 4 VALID, 31:5 zero (40_tag R124; 10_state R31). -/
def tagFlags (t : Tag) : Word :=
  0#27 ++ BitVec.ofBool t.isValid ++ BitVec.ofBool t.isSafeToCopy ++ BitVec.ofBool t.isReservedBitValid
    ++ BitVec.ofBool t.isPublic ++ BitVec.ofBool t.isCritical

/-- The STATUS word (10_state R24): ERRCODE in 15:8, OVR 3, ERR 2, DONE 1, BUSY 0, the rest zero. -/
def State.statusWord (s : State) : Word :=
  0#16 ++ s.errCode ++ 0#4 ++ BitVec.ofBool s.ovr ++ BitVec.ofBool s.err ++ BitVec.ofBool s.done ++ BitVec.ofBool s.busy

/-- A host write of `v` to STATUS while BUSY = 0: v[1] clears DONE, v[3] clears OVR, every other bit is ignored
(10_state R24). -/
def State.writeStatus (s : State) (v : Word) : State :=
  { s with done := s.done && !v.getLsbD 1, ovr := s.ovr && !v.getLsbD 3 }

/-- The interrupt output, a level (60_exceptions R252). -/
def State.irq (s : State) : Bool := s.irqEn && s.done

end Sys2Proof.Machine
end

