-- ==== Sys2Proof/Machine/Registers.lean ====
section
/-! DEFINITION. The register map (10_state R22): names, offsets, what a read returns and what a host write does. -/

namespace Sys2Proof.Machine

/-- The registers of 10_state R22. -/
inductive Reg where
  | id
  | ctrl
  | status
  | cmd
  | arg0
  | tlen
  | ioff
  | ilen
  | crcState
  | crcResult
  | tag
  | tagFlags
  | len
  | chk
  | outLen
  | nchunks
  | index
  | found
  | errInfo0
  | errInfo1
  | errPos
  deriving DecidableEq, Repr

/-- Offset in the register window (10_state R22). -/
def Reg.offset : Reg → Nat
  | .id => 0x00
  | .ctrl => 0x04
  | .status => 0x08
  | .cmd => 0x0C
  | .arg0 => 0x10
  | .tlen => 0x14
  | .ioff => 0x18
  | .ilen => 0x1C
  | .crcState => 0x20
  | .crcResult => 0x24
  | .tag => 0x28
  | .tagFlags => 0x2C
  | .len => 0x30
  | .chk => 0x34
  | .outLen => 0x38
  | .nchunks => 0x3C
  | .index => 0x40
  | .found => 0x44
  | .errInfo0 => 0x48
  | .errInfo1 => 0x4C
  | .errPos => 0x50

/-- The register at an offset; none at the reserved offsets 0x54 to 0xFC (10_state R40). -/
def Reg.ofOffset : Nat → Option Reg
  | 0x00 => some .id
  | 0x04 => some .ctrl
  | 0x08 => some .status
  | 0x0C => some .cmd
  | 0x10 => some .arg0
  | 0x14 => some .tlen
  | 0x18 => some .ioff
  | 0x1C => some .ilen
  | 0x20 => some .crcState
  | 0x24 => some .crcResult
  | 0x28 => some .tag
  | 0x2C => some .tagFlags
  | 0x30 => some .len
  | 0x34 => some .chk
  | 0x38 => some .outLen
  | 0x3C => some .nchunks
  | 0x40 => some .index
  | 0x44 => some .found
  | 0x48 => some .errInfo0
  | 0x4C => some .errInfo1
  | 0x50 => some .errPos
  | _ => none

/-- `x[NAME]` (00_scope R10): the register's value, reserved bits reading 0 (10_state R40). -/
def readReg (s : State) : Reg → Word
  | .id => 0x504E4731
  | .ctrl => 0#31 ++ BitVec.ofBool s.irqEn
  | .status => s.statusWord
  | .cmd => s.cmd
  | .arg0 => s.arg0
  | .tlen => s.tlen
  | .ioff => s.ioff
  | .ilen => s.ilen
  | .crcState => s.crcState
  | .crcResult => s.crcState ^^^ 0xFFFFFFFF
  | .tag => s.tag
  | .tagFlags => Sys2Proof.Machine.tagFlags (Tag.unpack s.tag)
  | .len => s.len
  | .chk => s.chk
  | .outLen => s.outLen
  | .nchunks => count s.store.length
  | .index => s.index
  | .found => 0#31 ++ BitVec.ofBool s.found
  | .errInfo0 => s.errInfo0
  | .errInfo1 => s.errInfo1
  | .errPos => s.errPos

/-- The registers whose value a host read returns while BUSY = 1 too (70_reset R282). -/
def Reg.readableBusy : Reg → Bool
  | .id | .ctrl | .status | .cmd | .arg0 | .tlen | .ioff | .ilen => true
  | .crcState | .crcResult | .tag | .tagFlags | .len | .chk | .outLen | .nchunks | .index | .found
  | .errInfo0 | .errInfo1 | .errPos => false

/-- What a host read of the register at an offset returns: 0 at a reserved offset (10_state R40; also while BUSY, log 9), a
free value for a result register while BUSY (70_reset R282; log 5), else its value. -/
def State.hostReadReg (s : State) (offset : Nat) : Word :=
  match Reg.ofOffset offset with
  | none => 0
  | some r => if s.busy && !r.readableBusy then Config.busyWord s.draws else readReg s r

/-- What a host write to a register does while BUSY = 0: an RW register stores, CMD issues, STATUS clears by W1C, an RO
register ignores it (10_state R22 to R26). -/
def State.writeReg (s : State) (r : Reg) (v : Word) : State :=
  match r with
  | .ctrl => { s with irqEn := v.getLsbD 0 }
  | .status => s.writeStatus v
  | .cmd => s.issue v
  | .arg0 => { s with arg0 := v }
  | .tlen => { s with tlen := v }
  | .ioff => { s with ioff := v }
  | .ilen => { s with ilen := v }
  | .id | .crcState | .crcResult | .tag | .tagFlags | .len | .chk | .outLen | .nchunks | .index | .found
  | .errInfo0 | .errInfo1 | .errPos => s

/-- The same at an offset; a reserved offset ignores the write (10_state R40). -/
def State.hostWriteReg (s : State) (offset : Nat) (v : Word) : State :=
  match Reg.ofOffset offset with
  | none => s
  | some r => s.writeReg r v

end Sys2Proof.Machine
end

