-- ==== Sys2Proof/Machine/Bus.lean ====
section
/-! DEFINITION. Host bus accesses: the three windows, widths, alignment and byte order (20_memory R60 to R72), and the
host's rules while BUSY (10_state R26; 70_reset R282). -/

namespace Sys2Proof.Machine

/-- Bytes an access of a width moves. -/
def Width.bytes : Width → Nat
  | .w8 => 1
  | .w16 => 2
  | .w32 => 4

/-- A host address in the register window (20_memory R61). -/
def inRegs (c : Config) (a : Nat) : Bool := decide (c.base ≤ a) && decide (a < c.base + 0x100)

/-- A host address in the input-buffer window (20_memory R62). -/
def inIbuf (c : Config) (a : Nat) : Bool :=
  decide (c.base + c.ibufOffset ≤ a) && decide (a < c.base + c.ibufOffset + c.ibufSize)

/-- A host address in the output-buffer window (20_memory R63). -/
def inObuf (c : Config) (a : Nat) : Bool :=
  decide (c.base + c.obufOffset ≤ a) && decide (a < c.base + c.obufOffset + c.obufSize)

/-- The access is a register access: 32 bits at a multiple of 4 in the register window (20_memory R69). -/
def isRegAccess (c : Config) (wd : Width) (a : Nat) : Bool := decide (wd = .w32) && a % 4 == 0 && inRegs c a

/-- The addresses of an access. -/
def accessAddrs (wd : Width) (a : Nat) : List Nat := List.range' a wd.bytes

/-- Some byte of the access is in a buffer window, and acts as a byte access there (20_memory R70). -/
def touchesBuffer (c : Config) (wd : Width) (a : Nat) : Bool :=
  (accessAddrs wd a).any fun x => inIbuf c x || inObuf c x

/-- Some byte of the access is in the register window. -/
def touchesRegs (c : Config) (wd : Width) (a : Nat) : Bool := (accessAddrs wd a).any (inRegs c)

/-- The access is this block's: some byte of it is in one of the three windows (20_memory R60). -/
def touchesBlock (c : Config) (wd : Width) (a : Nat) : Bool := touchesRegs c wd a || touchesBuffer c wd a

/-- The bus value of a byte sequence: the byte at the lowest address is least significant (20_memory R67). -/
def leWord : List Byte → Word
  | [] => 0
  | b :: bs => (leWord bs <<< 8) ||| b.setWidth 32

/-- The bytes of a bus value at rising addresses (20_memory R67). -/
def leBytes (n : Nat) (v : Word) : List Byte := (List.range n).map fun i => v.extractLsb' (8 * i) 8

/-- One byte of a host read. An IBUF byte reads its value, an OBUF byte too unless BUSY (70_reset R282: a free value
then); a byte outside the buffer windows reads 0 (20_memory R70; of the register window R69). -/
def State.busReadByte (s : State) (a : Nat) : Byte :=
  if inIbuf s.cfg a then s.ibufByte (a - (s.cfg.base + s.cfg.ibufOffset))
  else if inObuf s.cfg a then
    if s.busy then Config.busyByte s.draws (a - (s.cfg.base + s.cfg.obufOffset))
    else s.obufByte (a - (s.cfg.base + s.cfg.obufOffset))
  else 0

/-- What a host read returns, zero-extended to 32 bits (20_memory R67, R69, R70). A read with no byte in any window is
not this block's and returns a free value (log 8). -/
def State.busRead (s : State) (wd : Width) (a : Nat) : Word :=
  if isRegAccess s.cfg wd a then s.hostReadReg (a - s.cfg.base)
  else if touchesBlock s.cfg wd a then leWord ((accessAddrs wd a).map s.busReadByte)
  else leWord (leBytes wd.bytes (Config.outsideBus s.draws))

/-- One byte of a host write while BUSY = 0: into IBUF, into OBUF, or outside the buffer windows and ignored
(10_state R38; 20_memory R70). -/
def State.busWriteByte (s : State) (a : Nat) (b : Byte) : State :=
  if inIbuf s.cfg a then { s with ibuf := Memory.write s.ibuf (a - (s.cfg.base + s.cfg.ibufOffset)) b }
  else if inObuf s.cfg a then { s with obuf := Memory.write s.obuf (a - (s.cfg.base + s.cfg.obufOffset)) b }
  else s

/-- The bytes of a host write, in address order. -/
def State.busWriteBytes (s : State) (a : Nat) : List Byte → State
  | [] => s
  | b :: bs => (s.busWriteByte a b).busWriteBytes (a + 1) bs

/-- A host write (10_state R26). While BUSY every write to the block is ignored and sets OVR, a malformed register access
too (log 7). While BUSY = 0 a register access of another width or misaligned has no effect and sets no flag (20_memory
R69), and the bytes of any other access act as byte accesses (R70). A write to no window is not this block's (log 8). -/
def State.busWrite (s : State) (wd : Width) (a : Nat) (v : Word) : State :=
  if touchesBlock s.cfg wd a then
    if s.busy then { s with ovr := true }
    else if isRegAccess s.cfg wd a then s.hostWriteReg (a - s.cfg.base) v
    else s.busWriteBytes a (leBytes wd.bytes v)
  else s

/-- The model's record of a host read: what it returned, and the next free value (log 5, log 6). No architectural state
changes (20_memory R72). -/
def State.recordRead (s : State) (v : Word) : State := { s with reads := v :: s.reads, draws := s.draws + 1 }

/-- The host's next transaction (20_memory R74). `wait` reads STATUS and stays until BUSY reads 0 (30_encoding R104). A host
with no transaction left does nothing. -/
def State.hostTurn (s : State) : State :=
  match s.host with
  | [] => s
  | .read wd a :: rest => { s with host := rest }.recordRead (s.busRead wd a)
  | .write wd a v :: rest => { s with host := rest }.busWrite wd a v
  | .wait :: rest =>
    if (s.busRead .w32 (s.cfg.base + Reg.status.offset)).getLsbD 0 then
      s.recordRead (s.busRead .w32 (s.cfg.base + Reg.status.offset))
    else { s with host := rest }.recordRead (s.busRead .w32 (s.cfg.base + Reg.status.offset))

end Sys2Proof.Machine
end

