-- ==== Sys2Proof/Machine/Operands.lean ====
section
/-! DEFINITION. Every operand form of a command (30_encoding R94 to R100), with tag construction (40_tag R121), which
validates the tag operands. -/

namespace Sys2Proof.Machine

/-- The lowest index of a byte that is no letter (40_tag R121). -/
def Tag.firstNonLetter (t : Tag) : Option Word :=
  if !isLetter t.b0 then some 0
  else if !isLetter t.b1 then some 1
  else if !isLetter t.b2 then some 2
  else if !isLetter t.b3 then some 3
  else none

/-- `tag_construct` (40_tag R121). -/
def tagConstruct (t : Tag) : Except CmdError Tag :=
  match t.firstNonLetter with
  | some i => .error ⟨.invalidTagBytes, t.pack, i, 0⟩
  | none => .ok t

/-- The packed tag in ARG0 (30_encoding R94). -/
def tagOperand (s : State) : Tag := Tag.unpack s.arg0

/-- `tag_text_operand` (30_encoding R95). -/
def tagTextOperand (s : State) : Except CmdError Tag :=
  if s.tlen ≠ 4 then .error ⟨.invalidTagBytes, s.arg0, 0xFFFFFFFF, 0⟩
  else .ok (Tag.unpack s.arg0)

/-- The byte in ARG0[7:0]; bits 31:8 are ignored (30_encoding R96). -/
def byteOperand (s : State) : Byte := s.arg0.extractLsb' 0 8

/-- The CRC seed: all 32 bits of ARG0 (30_encoding R99). -/
def seedOperand (s : State) : Word := s.arg0

/-- The store index in ARG0, unsigned (30_encoding R98). -/
def indexOperand (s : State) : Nat := s.arg0.toNat

/-- `input_range`, with the exact sum (30_encoding R97). -/
def inputRange (s : State) : Except CmdError (List Byte) :=
  if s.ioff.toNat + s.ilen.toNat > s.cfg.ibufSize then .error ⟨.rangeError, s.ioff, s.ilen, 0⟩
  else .ok (s.ibufRange s.ioff.toNat s.ilen.toNat)

/-- `output_fits` (30_encoding R100). -/
def outputFits (s : State) (n : Nat) : Except CmdError Unit :=
  if n > s.cfg.obufSize then .error ⟨.outputOverflow, count n, count s.cfg.obufSize, 0⟩
  else .ok ()

end Sys2Proof.Machine
end

