-- ==== Sys2Proof/Machine/Chunk.lean ====
section
/-! DEFINITION. The chunk functions (42_chunk R160 to R164) and the commands CHUNK_ENCODE and CHUNK_DECODE
(R166, R167). -/

namespace Sys2Proof.Machine

/-- `chunk_construct` (42_chunk R162): the checksum is derived, never set. -/
def chunkConstruct (impl : CrcImpl) (t : Tag) (p : List Byte) : Chunk := ⟨t, p, crc32 impl (t.bytes ++ p)⟩

/-- `chunk_serialize` (42_chunk R163). -/
def chunkSerialize (c : Chunk) : List Byte :=
  be32bytes (count c.payload.length) ++ c.tag.bytes ++ c.payload ++ be32bytes c.crc

/-- `chunk_decode` (42_chunk R164), its steps in their order; lengths are exact (00_scope R14). -/
def chunkDecode (impl : CrcImpl) (s : List Byte) : Except CmdError Chunk :=
  let n := s.length
  let declaredLength := be32 (slice s 0 4)
  let declared := be32 (slice s (n - 4) n)
  let computed := crc32 impl (slice s 4 (n - 4))
  if n < 4 then .error ⟨.truncatedInput, count n, 4, 0⟩
  else if n < 12 then .error ⟨.truncatedInput, count n, 12, 0⟩
  else if n - 4 ≠ declaredLength.toNat + 8 then .error ⟨.invalidChunkLength, declaredLength, count (n - 12), 0⟩
  else if computed ≠ declared then .error ⟨.invalidChunkCrc, declared, computed, 0⟩
  else
    match tagConstruct (Tag.ofBytes (slice s 4 8)) with
    | .error e => .error e
    | .ok t => .ok ⟨t, slice s 8 (n - 4), declared⟩

/-- The three registers of the last chunk produced: TAG, LEN, CHK (10_state R30, R32). -/
def State.producedChunk (s : State) (c : Chunk) : State :=
  { s with tag := c.tag.pack, len := count c.payload.length, chk := c.crc }

/-- CHUNK_ENCODE (42_chunk R166). -/
def execChunkEncode (s : State) : Host.Outcome State Fault Refusal :=
  .next (s.complete do
    let p ← inputRange s
    let t ← tagConstruct (tagOperand s)
    let c := chunkConstruct s.cfg.crcImpl t p
    outputFits s (chunkSerialize c).length
    pure ((s.writeOutput (chunkSerialize c)).producedChunk c))

/-- CHUNK_DECODE (42_chunk R167). -/
def execChunkDecode (s : State) : Host.Outcome State Fault Refusal :=
  .next (s.complete do
    let bs ← inputRange s
    let c ← chunkDecode s.cfg.crcImpl bs
    pure (s.producedChunk c))

end Sys2Proof.Machine
end

