-- ==== Sys2Proof/Machine/Container.lean ====
section
/-! DEFINITION. The container functions (43_container R190 to R194, R202) and the commands PNG_PARSE, PNG_SERIALIZE,
PNG_CLEAR, PNG_APPEND, PNG_REMOVE, PNG_FIND, CHUNK_READ (R195 to R201). -/

namespace Sys2Proof.Machine

/-- Σ len(payload) (10_state R37). -/
def payloadBytes : List Chunk → Nat
  | [] => 0
  | c :: cs => c.payload.length + payloadBytes cs

/-- The bytes the parse hands to one chunk decode, of the `rest` from its offset on: the chunk's own length field cuts
them, and fewer than 4 bytes are handed over whole (43_container R192). -/
def cutLength (rest : List Byte) : Nat :=
  if rest.length < 4 then rest.length
  else min ((be32 (slice rest 0 4)).toNat + 12) rest.length

/-- Both bounds of 10_state R37. -/
def storeFits (cfg : Config) (chunks bytes : Nat) : Bool := decide (chunks ≤ cfg.maxChunks) && decide (bytes ≤ cfg.storeBytes)

/-- A payload total in ERR_INFO1. Under the constraints of 00_scope R7 it passes 32 bits in one case only: PNG_APPEND of
2^31 bytes to a store of 2^31 bytes. The value is then free (log 15). -/
def totalWord (n : Nat) : Word := if n < 2 ^ 32 then count n else Config.overwideTotal n

/-- StoreFull with the counts that would result (60_exceptions R243). -/
def storeFull (chunks bytes pos : Nat) : CmdError := ⟨.storeFull, count chunks, totalWord bytes, count pos⟩

/-- The loop of `container_parse` (43_container R192). `rest` is s[p..), `out` the chunks so far and `bytes` their payload
total. Each round takes at least one byte off `rest`, so `fuel` = len(s) rounds are enough and the last row is never
reached from `containerParse` (log 14). -/
def parseChunks (cfg : Config) : Nat → List Byte → Nat → List Chunk → Nat → Except CmdError (List Chunk)
  | _, [], _, out, _ => .ok out
  | fuel + 1, b :: bs, p, out, bytes =>
    let k := cutLength (b :: bs)
    match chunkDecode cfg.crcImpl (slice (b :: bs) 0 k) with
    | .error e => .error { e with pos := count p }
    | .ok c =>
      if storeFits cfg (out.length + 1) (bytes + c.payload.length) then
        parseChunks cfg fuel ((b :: bs).drop k) (p + k) (out ++ [c]) (bytes + c.payload.length)
      else .error (storeFull (out.length + 1) (bytes + c.payload.length) p)
  | 0, _ :: _, _, out, _ => .ok out

/-- `container_parse` (43_container R192). -/
def containerParse (cfg : Config) (s : List Byte) : Except CmdError (List Chunk) :=
  if s.length < 8 ∨ slice s 0 8 ≠ cfg.signature then
    let h := slice s 0 8 ++ List.replicate (8 - min 8 s.length) 0
    .error ⟨.invalidSignature, be32 (slice h 0 4), be32 (slice h 4 8), 0⟩
  else parseChunks cfg s.length (s.drop 8) 8 [] 0

/-- The serialized chunks, in list order. -/
def chunksSerialize : List Chunk → List Byte
  | [] => []
  | c :: cs => chunkSerialize c ++ chunksSerialize cs

/-- `container_serialize` (43_container R193). -/
def containerSerialize (cfg : Config) (l : List Chunk) : List Byte := cfg.signature ++ chunksSerialize l

/-- The lowest index of a chunk with the tag, compared byte-wise (43_container R202; 40_tag R125). -/
def firstMatch (t : Tag) : List Chunk → Option Nat
  | [] => none
  | c :: cs => if c.tag = t then some 0 else (firstMatch t cs).map (· + 1)

/-! ## Commands -/

/-- PNG_PARSE (43_container R195). -/
def execPngParse (s : State) : Host.Outcome State Fault Refusal :=
  .next (s.complete do
    let bs ← inputRange s
    let l ← containerParse s.cfg bs
    pure { s with store := l })

/-- PNG_SERIALIZE (43_container R197). -/
def execPngSerialize (s : State) : Host.Outcome State Fault Refusal :=
  .next (s.complete do
    outputFits s (containerSerialize s.cfg s.store).length
    pure (s.writeOutput (containerSerialize s.cfg s.store)))

/-- PNG_CLEAR (43_container R198). -/
def execPngClear (s : State) : Host.Outcome State Fault Refusal :=
  .next (s.complete (.ok { s with store := [] }))

/-- The capacity check of PNG_APPEND (43_container R196). -/
def appendFits (s : State) (p : List Byte) : Except CmdError Unit :=
  if storeFits s.cfg (s.store.length + 1) (payloadBytes s.store + p.length) then .ok ()
  else .error (storeFull (s.store.length + 1) (payloadBytes s.store + p.length) 0)

/-- PNG_APPEND (43_container R196). -/
def execPngAppend (s : State) : Host.Outcome State Fault Refusal :=
  .next (s.complete do
    let p ← inputRange s
    let t ← tagConstruct (tagOperand s)
    let c := chunkConstruct s.cfg.crcImpl t p
    appendFits s p
    pure ({ s with store := s.store ++ [c] }.producedChunk c))

/-- The match PNG_REMOVE removes, or ChunkNotFound (43_container R199). -/
def removeIndex (s : State) (t : Tag) : Except CmdError Nat :=
  match firstMatch t s.store with
  | none => .error ⟨.chunkNotFound, t.pack, count s.store.length, 0⟩
  | some i => .ok i

/-- PNG_REMOVE (43_container R199). -/
def execPngRemove (s : State) : Host.Outcome State Fault Refusal :=
  .next (s.complete do
    let b ← tagTextOperand s
    let t ← tagConstruct b
    let i ← removeIndex s t
    pure { s with store := s.store.take i ++ s.store.drop (i + 1), index := count i })

/-- What PNG_FIND looks up: a malformed tag operand is no error and matches nothing (43_container R200; 60_exceptions
R242). -/
def findIndex (s : State) : Option Nat :=
  match tagTextOperand s with
  | .error _ => none
  | .ok b =>
    match tagConstruct b with
    | .error _ => none
    | .ok t => firstMatch t s.store

/-- PNG_FIND (43_container R200). -/
def execPngFind (s : State) : Host.Outcome State Fault Refusal :=
  .next (s.complete (.ok
    (match findIndex s with
     | some i => { s with found := true, index := count i }
     | none => { s with found := false, index := 0xFFFFFFFF })))

/-- The chunk CHUNK_READ reads, or IndexRange (43_container R201). -/
def storedChunk (s : State) : Except CmdError Chunk :=
  match s.store[indexOperand s]? with
  | none => .error ⟨.indexRange, s.arg0, count s.store.length, 0⟩
  | some c => .ok c

/-- CHUNK_READ (43_container R201). -/
def execChunkRead (s : State) : Host.Outcome State Fault Refusal :=
  .next (s.complete do
    let c ← storedChunk s
    outputFits s (chunkSerialize c).length
    pure ((s.writeOutput (chunkSerialize c)).producedChunk c))

end Sys2Proof.Machine
end

