-- ==== Sys2Proof/Machine/Control.lean ====
section
/-! DEFINITION. NOP, SOFT_RESET and the illegal words (44_control R230 to R232). -/

namespace Sys2Proof.Machine

/-- NOP (44_control R230). -/
def execNop (s : State) : Host.Outcome State Fault Refusal :=
  .next (s.complete (.ok s))

/-- SOFT_RESET (44_control R231; 70_reset R272): every register at its reset value, CMD the word just issued, the buffers
kept, then completion as usual. -/
def execSoftReset (s : State) : Host.Outcome State Fault Refusal :=
  .next (s.complete (.ok { s.resetRegisters with cmd := 0x000000FF }))

/-- The completion of an illegal word w: IllegalCommand(w, 0, 0) (44_control R232). -/
def completeIllegal (s : State) (w : Word) : Host.Outcome State Fault Refusal :=
  .next (s.complete (.error ⟨.illegalCommand, w, 0, 0⟩))

end Sys2Proof.Machine
end

