-- ==== Sys2Proof/Machine/Tag.lean ====
section
/-! DEFINITION. The tag commands TAG_BYTES and TAG_TEXT (40_tag R127, R128). -/

namespace Sys2Proof.Machine

/-- TAG_BYTES (40_tag R127). -/
def execTagBytes (s : State) : Host.Outcome State Fault Refusal :=
  .next (s.complete do
    let t ← tagConstruct (tagOperand s)
    pure { s with tag := t.pack })

/-- TAG_TEXT (40_tag R128). -/
def execTagText (s : State) : Host.Outcome State Fault Refusal :=
  .next (s.complete do
    let b ← tagTextOperand s
    let t ← tagConstruct b
    pure { s with tag := t.pack })

end Sys2Proof.Machine
end

