-- ==== Sys2Proof/Machine/Dispatch.lean ====
section
/-! DEFINITION. One arm per command. -/

namespace Sys2Proof.Machine

def exec (i : Instr) (s : State) : Host.Outcome State Fault Refusal :=
  match i with
  | .nop => Sys2Proof.Machine.execNop s
  | .crcInit => Sys2Proof.Machine.execCrcInit s
  | .crcByte => Sys2Proof.Machine.execCrcByte s
  | .crcBuf => Sys2Proof.Machine.execCrcBuf s
  | .crcLoad => Sys2Proof.Machine.execCrcLoad s
  | .tagBytes => Sys2Proof.Machine.execTagBytes s
  | .tagText => Sys2Proof.Machine.execTagText s
  | .chunkEncode => Sys2Proof.Machine.execChunkEncode s
  | .chunkDecode => Sys2Proof.Machine.execChunkDecode s
  | .pngParse => Sys2Proof.Machine.execPngParse s
  | .pngSerialize => Sys2Proof.Machine.execPngSerialize s
  | .pngClear => Sys2Proof.Machine.execPngClear s
  | .pngAppend => Sys2Proof.Machine.execPngAppend s
  | .pngRemove => Sys2Proof.Machine.execPngRemove s
  | .pngFind => Sys2Proof.Machine.execPngFind s
  | .chunkRead => Sys2Proof.Machine.execChunkRead s
  | .softReset => Sys2Proof.Machine.execSoftReset s

end Sys2Proof.Machine
end

