-- ==== Sys2Proof/Machine/Engine.lean ====
section
/-! DEFINITION. The engine's completion step (10_state R27), the choice of who moves, and how a command is placed for the
next step. `step` and `withFetchWord` in Step.lean call these. -/

namespace Sys2Proof.Machine

/-- The engine's one step when BUSY = 1: the command `pending` names, or IllegalCommand (10_state R27; 44_control R232).
While BUSY = 0 the engine has no step and nothing happens. -/
def engineTurn (s : State) : Host.Outcome State Fault Refusal :=
  match s.pending with
  | none => .next s
  | some w =>
    match decodeCmd w with
    | .ok i => exec i s
    | .error _ => completeIllegal s w

/-- Who moves: the head of `turns`; with no turn left the engine if BUSY = 1, else the host. So a finite `turns` never
keeps the engine waiting for ever (70_reset R290; log 1). -/
def State.nextTurn (s : State) : Turn :=
  match s.turns with
  | t :: _ => t
  | [] => if s.busy then .engine else .host

/-- The state with the turn just chosen taken off the schedule. -/
def State.popTurn (s : State) : State := { s with turns := s.turns.tail }

/-- One step of the machine: the agent whose turn it is moves. -/
def turnStep (s : State) : Host.Outcome State Fault Refusal :=
  match s.nextTurn with
  | .engine => engineTurn s.popTurn
  | .host => .next s.popTurn.hostTurn
  | .reset => .next s.popTurn.hwReset

/-- The command word `w` issued and the engine next to move, so that the very next step executes it: the host's write to
CMD, already taken (10_state R26; log 2). Nothing else changes. -/
def State.placeCommand (s : State) (w : Word) : State :=
  { s.issue w with turns := .engine :: s.turns }

end Sys2Proof.Machine
end

