-- ==== Sys2Proof/Machine/Step.lean ====
section
/-! DEFINITION. One step of the machine, and the placing of an instruction for it. -/

namespace Sys2Proof.Machine

/-- One step: the agent whose turn it is moves (00_scope R15; log 1). -/
def step (s : State) : Host.Outcome State Fault Refusal := turnStep s

/-- `s` with the command of a table word issued, so that the next step executes it. There is no program counter
(10_state R20): a command comes to run by a host write to CMD, which this stands for (log 2). -/
def State.withFetchWord (s : State) (nbits w : Nat) : State :=
  s.placeCommand (BitVec.ofNat 32 (w % 2 ^ nbits))

end Sys2Proof.Machine
end

