-- ==== Sys2Proof/Machine/HostProgram.lean ====
section
/-! DEFINITION. The host-program notation (30_encoding R104 to R106): statements, the expansions of the
pseudo-statements, and their bus transactions. BASE and the offsets stay parameters (R106). -/

namespace Sys2Proof.Machine

/-- A statement of a host program (30_encoding R104) or a pseudo-statement (R105). A tag text is the list of its encoded
bytes. -/
inductive Stmt where
  /-- `wr REG, v` -/
  | wr (r : Reg) (v : Word)
  /-- `rd REG` -/
  | rd (r : Reg)
  /-- `wb IBUF[a], b0 b1 … bk` -/
  | wbIbuf (a : Nat) (bs : List Byte)
  /-- `ww IBUF[a], v` -/
  | wwIbuf (a : Nat) (v : Word)
  /-- `rb OBUF[a]` -/
  | rbObuf (a : Nat)
  /-- `wb OBUF[a], b0 …` -/
  | wbObuf (a : Nat) (bs : List Byte)
  /-- `cmd OPC` -/
  | cmd (i : Instr)
  /-- `wait` -/
  | wait
  /-- `exec OPC` -/
  | exec (i : Instr)
  /-- `range a, n` -/
  | range (a n : Word)
  /-- `tag "abcd"` -/
  | tag (t : Tag)
  /-- `tagtext s` -/
  | tagtext (s : List Byte)
  /-- `crc32 a, n` -/
  | crc32 (a n : Word)
  /-- `check` -/
  | check
  deriving DecidableEq, Repr

/-- A 32-bit write of a register (30_encoding R104). -/
def wrTxn (c : Config) (r : Reg) (v : Word) : HostOp := .write .w32 (c.base + r.offset) v

/-- A 32-bit read of a register (30_encoding R104). -/
def rdTxn (c : Config) (r : Reg) : HostOp := .read .w32 (c.base + r.offset)

/-- Byte writes at rising addresses (30_encoding R104). -/
def wbTxns : Nat → List Byte → List HostOp
  | _, [] => []
  | a, b :: bs => .write .w8 a (b.setWidth 32) :: wbTxns (a + 1) bs

/-- The word `tagtext` writes to TLEN: the text's byte length (30_encoding R95, R105). A length of 2^32 or more is no u32,
and the word is then free (DESIGN CHOICE, log 17). -/
def textLength (s : List Byte) : Word := if s.length < 2 ^ 32 then count s.length else Config.overlongText s.length

/-- The bus transactions of a statement (30_encoding R104 to R106). For a `tagtext` of 2^32 bytes or more the word written
to TLEN is free, the model's choice (log 17). -/
def Stmt.encode (c : Config) : Stmt → List HostOp
  | .wr r v => [wrTxn c r v]
  | .rd r => [rdTxn c r]
  | .wbIbuf a bs => wbTxns (c.base + c.ibufOffset + a) bs
  | .wwIbuf a v => [.write .w32 (c.base + c.ibufOffset + a) v]
  | .rbObuf a => [.read .w8 (c.base + c.obufOffset + a)]
  | .wbObuf a bs => wbTxns (c.base + c.obufOffset + a) bs
  | .cmd i => [wrTxn c .cmd (Sys2Proof.encode i)]
  | .wait => [.wait]
  | .exec i => [wrTxn c .cmd (Sys2Proof.encode i), .wait]
  | .range a n => [wrTxn c .ioff a, wrTxn c .ilen n]
  | .tag t => [wrTxn c .arg0 t.pack]
  | .tagtext s =>
    [wrTxn c .tlen (textLength s), wrTxn c .arg0 (if s.length = 4 then (Tag.ofBytes s).pack else 0)]
  | .crc32 a n =>
    [wrTxn c .ioff a, wrTxn c .ilen n, wrTxn c .cmd (Sys2Proof.encode .crcInit), .wait,
      wrTxn c .cmd (Sys2Proof.encode .crcBuf), .wait, rdTxn c .crcResult]
  | .check => [rdTxn c .status]

/-- The transactions of a program (30_encoding R106). -/
def encodeProgram (c : Config) (p : List Stmt) : List HostOp := p.flatMap (Stmt.encode c)

/-- A state with a host program placed (log 2). -/
def State.withProgram (s : State) (p : List Stmt) : State := { s with host := encodeProgram s.cfg p }

end Sys2Proof.Machine
end

