-- ==== Sys2Proof/Safety.lean ====
section
/-! DEFINITION. What a good state and a safe run are, in the terms the statements use. -/

namespace Sys2Proof.Machine

/-- The chunk-value invariant (10_state R36). -/
structure Chunk.Wf (impl : CrcImpl) (c : Chunk) : Prop where
  letters : c.tag.letters = true
  payloadLength : c.payload.length ≤ 2 ^ 32 - 1
  checksum : c.crc = crc32 impl (c.tag.bytes ++ c.payload)

/-- A buffer's memory in canonical form, every offset inside the buffer. -/
structure Memory.Within (size : Nat) (m : Memory) : Prop where
  canonical : Memory.wf m
  inside : ∀ p ∈ m, p.1 < size

/-- The error codes a command can complete with, and 0 (60_exceptions R241: 5 and 13 to 255 are never raised). -/
def legalErrCode (c : BitVec 8) : Bool := decide (c.toNat ≤ 12) && decide (c.toNat ≠ 5)

/-- What every step keeps: the parameters' constraints (00_scope R7), the buffers' form and bounds (10_state R38), the
chunk-value invariant and the store's capacity (R36, R37), a legal error code (60_exceptions R241), issue's clearing of
DONE and ERRCODE (10_state R26), a TAG that is 0 or a validated tag (R30), an OUT_LEN inside OBUF (20_memory R71). -/
structure State.Inv (s : State) : Prop where
  config : s.cfg.legal = true
  ibuf : Memory.Within s.cfg.ibufSize s.ibuf
  obuf : Memory.Within s.cfg.obufSize s.obuf
  chunks : ∀ c ∈ s.store, Chunk.Wf s.cfg.crcImpl c
  chunkCount : s.store.length ≤ s.cfg.maxChunks
  chunkBytes : payloadBytes s.store ≤ s.cfg.storeBytes
  errCode : legalErrCode s.errCode = true
  issued : s.busy = true → s.done = false ∧ s.errCode = 0
  tag : s.tag = 0 ∨ (Tag.unpack s.tag).letters = true
  outLen : s.outLen.toNat ≤ s.cfg.obufSize

/-- A clean engine (00_scope R18), as far as one state shows it: a claim states STORE, the IBUF bytes and the operand
registers itself. -/
structure State.Clean (s : State) : Prop where
  idle : s.busy = false
  noOverrun : s.ovr = false
  noError : s.errCode = 0

/-- What a completion that raises nothing leaves, over a state that holds its results (60_exceptions R247): BUSY = 0,
DONE = 1, ERRCODE = 0. -/
def State.completed (s : State) : State := { s with busy := false, done := true, errCode := 0 }

/-- What an error leaves (60_exceptions R246): STATUS and the three ERR registers written, everything else as at issue. -/
def State.failedWith (s : State) (code : BitVec 8) (info0 info1 pos : Word) : State :=
  { s with
    busy := false
    done := true
    errCode := code
    errInfo0 := info0
    errInfo1 := info1
    errPos := pos }

/-- The parts of the completion report (60_exceptions R246, R247) as `t` has them, everything else as `s` has it. A frame
says that `t` is this, but for the registers the command's rule names. -/
def State.reportOf (s t : State) : State :=
  { s with
    busy := t.busy
    done := t.done
    errCode := t.errCode
    errInfo0 := t.errInfo0
    errInfo1 := t.errInfo1
    errPos := t.errPos }

/-- Byte `i` of the tag is its lowest byte that is no letter (40_tag R121). -/
def Tag.FailsAt (t : Tag) (i : Nat) : Prop :=
  i < 4 ∧ isLetter (t.bytes.getD i 0) = false ∧ ∀ j < i, isLetter (t.bytes.getD j 0) = true

/-- The input range lies in IBUF, with the exact sum (30_encoding R97). -/
def State.RangeOk (s : State) : Prop := s.ioff.toNat + s.ilen.toNat ≤ s.cfg.ibufSize

/-- The bytes of the input range (30_encoding R97). -/
def State.input (s : State) : List Byte := s.ibufRange s.ioff.toNat s.ilen.toNat

/-- An access of width `wd` at `a` covers a byte of the window of `size` bytes at `lo` (20_memory R61 to R63, R70). -/
def AccessCovers (lo size : Nat) (wd : Width) (a : Nat) : Prop := ∃ j < wd.bytes, ∃ x < size, a + j = lo + x

/-- A word is illegal (30_encoding R93): bits 31:8 not zero, or an unassigned OPC. -/
def IllegalWord (w : Word) : Prop :=
  w.toNat / 256 ≠ 0 ∨ (0x05 ≤ w.toNat % 256 ∧ w.toNat % 256 ≤ 0x0F) ∨ (0x12 ≤ w.toNat % 256 ∧ w.toNat % 256 ≤ 0x1F) ∨
    (0x22 ≤ w.toNat % 256 ∧ w.toNat % 256 ≤ 0x2F) ∨ (0x37 ≤ w.toNat % 256 ∧ w.toNat % 256 ≤ 0xFE)

/-- A safe run of `n` steps: no fault and no refusal on the way. -/
def RunsSafely (s : State) (n : Nat) : Prop := ∃ t, Sys2Proof.core.run n s = .next t

end Sys2Proof.Machine
end

