-- ==== Sys2Proof/Certificates/Slice0/Obligations.lean ====
section
/-! DEFINITION. The statements for the provers. Each docstring names the rule of spec/ it formalises. A free value is an
opaque constant of Config.lean: what is said of one holds whatever it is. -/

open Sys2Proof Sys2Proof.Machine

/-! ## Encoding -/

/-- The words of the opcode map, written out from 30_encoding R92. -/
def Obligations.OpcodeMapWordsDecode : Prop :=
  decodeCmd 0x00000000 = .ok .nop ∧ decodeCmd 0x00000001 = .ok .crcInit ∧ decodeCmd 0x00000002 = .ok .crcByte ∧
  decodeCmd 0x00000003 = .ok .crcBuf ∧ decodeCmd 0x00000004 = .ok .crcLoad ∧ decodeCmd 0x00000010 = .ok .tagBytes ∧
  decodeCmd 0x00000011 = .ok .tagText ∧ decodeCmd 0x00000020 = .ok .chunkEncode ∧
  decodeCmd 0x00000021 = .ok .chunkDecode ∧ decodeCmd 0x00000030 = .ok .pngParse ∧
  decodeCmd 0x00000031 = .ok .pngSerialize ∧ decodeCmd 0x00000032 = .ok .pngClear ∧
  decodeCmd 0x00000033 = .ok .pngAppend ∧ decodeCmd 0x00000034 = .ok .pngRemove ∧
  decodeCmd 0x00000035 = .ok .pngFind ∧ decodeCmd 0x00000036 = .ok .chunkRead ∧
  decodeCmd 0x000000FF = .ok .softReset

/-- Decoder and encoder agree on every word: each command has one word, the opcode map's, and no other word
decodes to it (30_encoding R101, R92, R90). -/
def Obligations.DecodeExactlyTheEncodedWord : Prop :=
  (∀ (w : Word) (i : Instr), decodeCmd w = .ok i ↔ w = encode i) ∧
  (∀ i : Instr, encode i =
    match i with
    | .nop => 0x00000000
    | .crcInit => 0x00000001
    | .crcByte => 0x00000002
    | .crcBuf => 0x00000003
    | .crcLoad => 0x00000004
    | .tagBytes => 0x00000010
    | .tagText => 0x00000011
    | .chunkEncode => 0x00000020
    | .chunkDecode => 0x00000021
    | .pngParse => 0x00000030
    | .pngSerialize => 0x00000031
    | .pngClear => 0x00000032
    | .pngAppend => 0x00000033
    | .pngRemove => 0x00000034
    | .pngFind => 0x00000035
    | .chunkRead => 0x00000036
    | .softReset => 0x000000FF)

/-- Which words are illegal, and that an illegal word is issued like any other and completes with IllegalCommand
(30_encoding R93; 44_control R232). -/
def Obligations.IllegalWordsIssueAndCompleteWithReport : Prop :=
  (∀ w : Word, (∃ r, decodeCmd w = .error r) ↔ IllegalWord w) ∧
  (∀ (s : State) (w : Word), IllegalWord w → s.busy = false →
    s.writeReg .cmd w = { s with cmd := w, busy := true, done := false, errCode := 0 }) ∧
  (∀ s : State, IllegalWord s.cmd → s.busy = true → engineTurn s = .next (s.failedWith 8 s.cmd 0 0))

/-! ## The step -/

/-- A step of the engine runs the command that CMD's word decodes to (10_state R27), on the state with the turn taken; the
turn (log 1) is the model's. And the word placed by `withFetchWord` is the one the very next step runs, as if the host had
just issued it (10_state R26; log 2). -/
def Obligations.EngineStepRunsTheDecodedCommand : Prop :=
  (∀ (s : State) (i : Instr), s.busy = true → decodeCmd s.cmd = .ok i →
    (s.turns = [] ∨ ∃ rest, s.turns = .engine :: rest) →
    step s = exec i { s with turns := s.turns.tail }) ∧
  (∀ (s : State) (i : Instr),
    step (s.withFetchWord 32 (encode i).toNat) =
      exec i { s with cmd := encode i, busy := true, done := false, errCode := 0 })

/-- No step of the machine stops, and so no run: the block has no traps (60_exceptions R240). And every issued word
completes: after the engine's step BUSY = 0 and DONE = 1 (10_state R27). -/
def Obligations.EveryStepAnswersANextState : Prop :=
  (∀ s : State, ∃ t, step s = .next t) ∧ (∀ (s : State) (n : Nat), RunsSafely s n) ∧
  (∀ s t : State, s.busy = true → s.nextTurn = .engine → step s = .next t → t.busy = false ∧ t.done = true)

/-- BUSY falls within one step more than there are turns scheduled, whatever the host and the reset input do in between; and
when no reset is scheduled, which abandons the command (70_reset R270), the command has then completed: DONE = 1 (10_state
R27; 70_reset R290; the finite schedule is log 1). -/
def Obligations.BusyFallsWithinTheSchedule : Prop :=
  ∀ s : State, s.busy = true →
    ∃ n t, n ≤ s.turns.length + 1 ∧ Sys2Proof.core.run n s = .next t ∧ t.busy = false ∧
      (Turn.reset ∉ s.turns → t.done = true)

/-- A host write that arrives together with a completion: before it the write is ignored and sets OVR, after it the write
takes effect (60_exceptions R253). Here for a write of ARG0. -/
def Obligations.BothOrdersOfWriteAndCompletion : Prop :=
  ∀ (s : State) (v : Word) (rest : List HostOp), s.cfg.legal = true → s.busy = true → decodeCmd s.cmd = .ok .nop →
    s.host = .write .w32 (s.cfg.base + 0x10) v :: rest →
    Sys2Proof.core.run 2 { s with turns := [.host, .engine] } =
      .next { s with turns := [], host := rest, ovr := true, busy := false, done := true, errCode := 0 } ∧
    Sys2Proof.core.run 2 { s with turns := [.engine, .host] } =
      .next { s with turns := [], host := rest, arg0 := v, busy := false, done := true, errCode := 0 }

/-! ## Reset -/

/-- What a hardware reset leaves (10_state R41): every register by name, STORE, the interrupt output, and every buffer
byte the free value of that reset. That the bytes are a free value is the spec's (70_reset R271); its form, by reset count
and offset, is the model's choice (log 4). -/
def Obligations.HardwareResetValues : Prop :=
  ∀ s : State,
    let t := s.hwReset
    readReg t .id = 0x504E4731 ∧ readReg t .ctrl = 0 ∧ readReg t .status = 0 ∧ readReg t .cmd = 0 ∧
    readReg t .arg0 = 0 ∧ readReg t .tlen = 0 ∧ readReg t .ioff = 0 ∧ readReg t .ilen = 0 ∧
    readReg t .crcState = 0xFFFFFFFF ∧ readReg t .crcResult = 0 ∧ readReg t .tag = 0 ∧
    readReg t .tagFlags = 0x17 ∧ readReg t .len = 0 ∧ readReg t .chk = 0 ∧ readReg t .outLen = 0 ∧
    readReg t .nchunks = 0 ∧ readReg t .index = 0xFFFFFFFF ∧ readReg t .found = 0 ∧
    readReg t .errInfo0 = 0 ∧ readReg t .errInfo1 = 0 ∧ readReg t .errPos = 0 ∧
    t.store = [] ∧ t.irq = false ∧ t.cfg = s.cfg ∧
    (∀ a, t.ibufByte a = Config.ibufReset (s.resets + 1) a ∧ t.obufByte a = Config.obufReset (s.resets + 1) a)

/-- The state after reset is the hardware reset of any state, but for the configuration (log 3) and the model's own fields
(10_state R41; 70_reset R270: any command in flight is abandoned). -/
def Obligations.ResetStateIsAHardwareReset : Prop :=
  ∀ s : State,
    s.hwReset =
      { Sys2Proof.core.reset with
        cfg := s.cfg, resets := s.resets + 1, draws := s.draws, host := s.host, turns := s.turns, reads := s.reads } ∧
    (s.nextTurn = .reset → step s = .next { s with turns := s.turns.tail }.hwReset)

/-- SOFT_RESET equals a hardware reset with three exceptions: the buffers keep their bytes, CMD reads 0x000000FF, DONE = 1
(70_reset R272; 44_control R231). -/
def Obligations.SoftResetEqualsHardwareResetButForThree : Prop :=
  decodeCmd 0x000000FF = .ok .softReset ∧
  ∀ s : State, ∃ t, exec .softReset s = .next t ∧
    t = { s.hwReset with cmd := 0x000000FF, done := true, ibuf := s.ibuf, obuf := s.obuf, resets := s.resets } ∧
    readReg t .status = 0x00000002 ∧ t.irq = false ∧
    (∀ a, t.ibufByte a = s.ibufByte a ∧ t.obufByte a = s.obufByte a)

/-! ## Results of the commands. Each clause concludes with the next state, so each is a completion statement too. -/

/-- NOP completes with no effect (44_control R230), PNG_CLEAR empties STORE and changes nothing else (43_container R198). -/
def Obligations.NopAndClearComplete : Prop :=
  decodeCmd 0x00000000 = .ok .nop ∧ decodeCmd 0x00000032 = .ok .pngClear ∧
  ∀ s : State,
    exec .nop s = .next s.completed ∧
    exec .pngClear s = .next { s with store := [] }.completed ∧
    readReg { s with store := [] }.completed .nchunks = 0

/-- CRC_INIT and CRC_LOAD set CRC_STATE (41_crc R146, R149). -/
def Obligations.CrcInitAndLoadSetTheCrcRegister : Prop :=
  decodeCmd 0x00000001 = .ok .crcInit ∧ decodeCmd 0x00000004 = .ok .crcLoad ∧
  ∀ s : State,
    exec .crcInit s = .next { s with crcState := 0xFFFFFFFF }.completed ∧
    readReg { s with crcState := 0xFFFFFFFF }.completed .crcResult = 0 ∧
    exec .crcLoad s = .next { s with crcState := s.arg0 }.completed

/-- CRC_BYTE feeds ARG0[7:0] by the table step, whichever form CRC_IMPL selects (41_crc R147, R142, R144). -/
def Obligations.CrcByteFeedsOneByteByTheTable : Prop :=
  decodeCmd 0x00000002 = .ok .crcByte ∧
  ∀ s : State,
    exec .crcByte s =
      .next { s with crcState := crcTableAt ((s.crcState ^^^ (s.arg0 &&& 0xFF)) &&& 0xFF).toNat ^^^ (s.crcState >>> 8) }.completed

/-- CRC_BUF feeds the input range in order, or reports RangeError (41_crc R148). -/
def Obligations.CrcBufFeedsTheInputRange : Prop :=
  decodeCmd 0x00000003 = .ok .crcBuf ∧
  ∀ s : State,
    (¬ s.RangeOk → exec .crcBuf s = .next (s.failedWith 9 s.ioff s.ilen 0)) ∧
    (s.RangeOk → exec .crcBuf s = .next { s with crcState := crcRun .table s.crcState s.input }.completed) ∧
    (s.ioff.toNat ≤ s.cfg.ibufSize → s.ilen = 0 → exec .crcBuf s = .next s.completed)

/-- TAG_BYTES: the four bytes of ARG0 if all are letters, else InvalidTagBytes at the lowest failing one (40_tag R127,
R121). -/
def Obligations.TagBytesValidatesAndStores : Prop :=
  decodeCmd 0x00000010 = .ok .tagBytes ∧
  ∀ s : State,
    ((Tag.unpack s.arg0).letters = true → exec .tagBytes s = .next { s with tag := s.arg0 }.completed) ∧
    (∀ i, (Tag.unpack s.arg0).FailsAt i → exec .tagBytes s = .next (s.failedWith 1 s.arg0 (BitVec.ofNat 32 i) 0)) ∧
    ((Tag.unpack s.arg0).letters = true ∨ ∃ i, (Tag.unpack s.arg0).FailsAt i)

/-- TAG_TEXT: the length test first, then as TAG_BYTES (40_tag R128; 30_encoding R95). -/
def Obligations.TagTextTestsLengthThenLetters : Prop :=
  decodeCmd 0x00000011 = .ok .tagText ∧
  ∀ s : State,
    (s.tlen ≠ 4 → exec .tagText s = .next (s.failedWith 1 s.arg0 0xFFFFFFFF 0)) ∧
    (s.tlen = 4 → (Tag.unpack s.arg0).letters = true → exec .tagText s = .next { s with tag := s.arg0 }.completed) ∧
    (∀ i, s.tlen = 4 → (Tag.unpack s.arg0).FailsAt i →
      exec .tagText s = .next (s.failedWith 1 s.arg0 (BitVec.ofNat 32 i) 0))

/-- CHUNK_ENCODE: its errors in priority order, and on success the wire bytes of 42_chunk R160 at OBUF[0..ILEN+12), every
other OBUF byte kept, and OUT_LEN, TAG, LEN, CHK (42_chunk R166). -/
def Obligations.ChunkEncodeWritesTheChunk : Prop :=
  decodeCmd 0x00000020 = .ok .chunkEncode ∧
  ∀ s : State,
    let t := Tag.unpack s.arg0
    let n := s.ilen.toNat + 12
    let crc := crc32 s.cfg.crcImpl (t.bytes ++ s.input)
    (¬ s.RangeOk → exec .chunkEncode s = .next (s.failedWith 9 s.ioff s.ilen 0)) ∧
    (∀ i, s.RangeOk → t.FailsAt i → exec .chunkEncode s = .next (s.failedWith 1 s.arg0 (BitVec.ofNat 32 i) 0)) ∧
    (s.RangeOk → t.letters = true → s.cfg.obufSize < n →
      exec .chunkEncode s = .next (s.failedWith 10 (BitVec.ofNat 32 n) (BitVec.ofNat 32 s.cfg.obufSize) 0)) ∧
    (s.RangeOk → t.letters = true → n ≤ s.cfg.obufSize →
      ∃ u, exec .chunkEncode s = .next u ∧
        u = { s with obuf := u.obuf, outLen := BitVec.ofNat 32 n, tag := s.arg0, len := s.ilen, chk := crc }.completed ∧
        (∀ a, u.obufByte a =
          if a < n then (be32bytes s.ilen ++ t.bytes ++ s.input ++ be32bytes crc).getD a 0 else s.obufByte a))

/-- CHUNK_DECODE: its errors in priority order, and on success TAG, LEN, CHK from the chunk in IBUF (42_chunk R167, R164).
`d` is the declared checksum and `k` the computed one. -/
def Obligations.ChunkDecodeChecksInOrder : Prop :=
  decodeCmd 0x00000021 = .ok .chunkDecode ∧
  ∀ s : State,
    let n := s.ilen.toNat
    let len := be32 s.input
    let d := be32 (s.input.drop (n - 4))
    let k := crc32 s.cfg.crcImpl ((s.input.drop 4).take (n - 8))
    let t := Tag.ofBytes (s.input.drop 4)
    (¬ s.RangeOk → exec .chunkDecode s = .next (s.failedWith 9 s.ioff s.ilen 0)) ∧
    (s.RangeOk → n < 4 → exec .chunkDecode s = .next (s.failedWith 2 s.ilen 4 0)) ∧
    (s.RangeOk → 4 ≤ n → n < 12 → exec .chunkDecode s = .next (s.failedWith 2 s.ilen 12 0)) ∧
    (s.RangeOk → 12 ≤ n → n ≠ len.toNat + 12 →
      exec .chunkDecode s = .next (s.failedWith 3 len (BitVec.ofNat 32 (n - 12)) 0)) ∧
    (s.RangeOk → 12 ≤ n → n = len.toNat + 12 → d ≠ k → exec .chunkDecode s = .next (s.failedWith 4 d k 0)) ∧
    (∀ i, s.RangeOk → 12 ≤ n → n = len.toNat + 12 → d = k → t.FailsAt i →
      exec .chunkDecode s = .next (s.failedWith 1 t.pack (BitVec.ofNat 32 i) 0)) ∧
    (s.RangeOk → 12 ≤ n → n = len.toNat + 12 → d = k → t.letters = true →
      exec .chunkDecode s = .next { s with tag := t.pack, len := len, chk := d }.completed)

/-- PNG_PARSE: RangeError, then InvalidSignature with the zero-padded leading bytes, then what the parse of the container
answers; on success STORE is replaced and nothing else changes (43_container R195, R192). -/
def Obligations.PngParseReplacesTheStore : Prop :=
  decodeCmd 0x00000030 = .ok .pngParse ∧
  ∀ s : State, s.cfg.legal = true →
    (¬ s.RangeOk → exec .pngParse s = .next (s.failedWith 9 s.ioff s.ilen 0)) ∧
    (s.RangeOk → ¬ s.cfg.signature <+: s.input →
      exec .pngParse s = .next (s.failedWith 6 (be32 (s.input.take 4)) (be32 ((s.input.take 8).drop 4)) 0)) ∧
    (∀ l, s.RangeOk → s.cfg.signature <+: s.input → containerParse s.cfg s.input = .ok l →
      exec .pngParse s = .next { s with store := l }.completed ∧
        readReg { s with store := l }.completed .nchunks = BitVec.ofNat 32 l.length) ∧
    (∀ e, s.RangeOk → s.cfg.signature <+: s.input → containerParse s.cfg s.input = .error e →
      exec .pngParse s = .next (s.failedWith e.kind.code e.info0 e.info1 e.pos))

/-- PNG_SERIALIZE: the signature and the chunks at OBUF[0..n), every other OBUF byte kept, or OutputOverflow
(43_container R197, R193). -/
def Obligations.PngSerializeWritesTheContainer : Prop :=
  decodeCmd 0x00000031 = .ok .pngSerialize ∧
  ∀ s : State,
    let out := s.cfg.signature ++ (s.store.map chunkSerialize).flatten
    (s.cfg.obufSize < out.length → exec .pngSerialize s =
      .next (s.failedWith 10 (BitVec.ofNat 32 out.length) (BitVec.ofNat 32 s.cfg.obufSize) 0)) ∧
    (out.length ≤ s.cfg.obufSize →
      ∃ u, exec .pngSerialize s = .next u ∧
        u = { s with obuf := u.obuf, outLen := BitVec.ofNat 32 out.length }.completed ∧
        (∀ a, u.obufByte a = if a < out.length then out.getD a 0 else s.obufByte a))

/-- PNG_APPEND: its errors in priority order, and on success the derived chunk at the end of STORE, and TAG, LEN, CHK
(43_container R196). A payload total of 2^32 or more has no word: ERR_INFO1 is then a free value (log 15). -/
def Obligations.PngAppendAddsAtTheEnd : Prop :=
  decodeCmd 0x00000033 = .ok .pngAppend ∧
  ∀ s : State,
    let t := Tag.unpack s.arg0
    let crc := crc32 s.cfg.crcImpl (t.bytes ++ s.input)
    let chunks := s.store.length + 1
    let bytes := (s.store.map fun c => c.payload.length).sum + s.ilen.toNat
    (¬ s.RangeOk → exec .pngAppend s = .next (s.failedWith 9 s.ioff s.ilen 0)) ∧
    (∀ i, s.RangeOk → t.FailsAt i → exec .pngAppend s = .next (s.failedWith 1 s.arg0 (BitVec.ofNat 32 i) 0)) ∧
    (s.RangeOk → t.letters = true → (s.cfg.maxChunks < chunks ∨ s.cfg.storeBytes < bytes) →
      ∃ total, exec .pngAppend s = .next (s.failedWith 11 (BitVec.ofNat 32 chunks) total 0) ∧
        (bytes < 2 ^ 32 → total = BitVec.ofNat 32 bytes)) ∧
    (s.RangeOk → t.letters = true → chunks ≤ s.cfg.maxChunks → bytes ≤ s.cfg.storeBytes →
      exec .pngAppend s =
        .next { s with store := s.store ++ [(⟨t, s.input, crc⟩ : Chunk)], tag := s.arg0, len := s.ilen, chk := crc }.completed)

/-- PNG_REMOVE: the tag text's errors, ChunkNotFound, or the removal of the lowest-indexed chunk with the tag and no other
(43_container R199, R202). -/
def Obligations.PngRemoveRemovesTheFirstMatch : Prop :=
  decodeCmd 0x00000034 = .ok .pngRemove ∧
  ∀ s : State,
    let t := Tag.unpack s.arg0
    (s.tlen ≠ 4 → exec .pngRemove s = .next (s.failedWith 1 s.arg0 0xFFFFFFFF 0)) ∧
    (∀ i, s.tlen = 4 → t.FailsAt i → exec .pngRemove s = .next (s.failedWith 1 s.arg0 (BitVec.ofNat 32 i) 0)) ∧
    (s.tlen = 4 → t.letters = true → (∀ c ∈ s.store, c.tag ≠ t) →
      exec .pngRemove s = .next (s.failedWith 7 s.arg0 (BitVec.ofNat 32 s.store.length) 0)) ∧
    (∀ before c after, s.tlen = 4 → t.letters = true → s.store = before ++ c :: after → c.tag = t →
      (∀ d ∈ before, d.tag ≠ t) →
      exec .pngRemove s =
        .next { s with store := before ++ after, index := BitVec.ofNat 32 before.length }.completed)

/-- PNG_FIND: FOUND and INDEX of the lowest-indexed chunk with the tag; no match, and a malformed tag text, read as absent,
never as an error (43_container R200, R202; 60_exceptions R242). -/
def Obligations.PngFindNeverFails : Prop :=
  decodeCmd 0x00000035 = .ok .pngFind ∧
  ∀ s : State,
    let t := Tag.unpack s.arg0
    (∀ before c after, s.tlen = 4 → t.letters = true → s.store = before ++ c :: after → c.tag = t →
      (∀ d ∈ before, d.tag ≠ t) →
      exec .pngFind s = .next { s with found := true, index := BitVec.ofNat 32 before.length }.completed) ∧
    ((s.tlen ≠ 4 ∨ t.letters = false ∨ ∀ c ∈ s.store, c.tag ≠ t) →
      exec .pngFind s = .next { s with found := false, index := 0xFFFFFFFF }.completed)

/-- CHUNK_READ: IndexRange, OutputOverflow, or the stored chunk's wire bytes at OBUF[0..n), every other OBUF byte kept,
and OUT_LEN, TAG, LEN, CHK (43_container R201). -/
def Obligations.ChunkReadReadsTheStoredChunk : Prop :=
  decodeCmd 0x00000036 = .ok .chunkRead ∧
  ∀ s : State,
    (s.store.length ≤ s.arg0.toNat →
      exec .chunkRead s = .next (s.failedWith 12 s.arg0 (BitVec.ofNat 32 s.store.length) 0)) ∧
    (∀ before c after, s.store = before ++ c :: after → s.arg0.toNat = before.length →
      let n := c.payload.length + 12
      (s.cfg.obufSize < n → exec .chunkRead s =
        .next (s.failedWith 10 (BitVec.ofNat 32 n) (BitVec.ofNat 32 s.cfg.obufSize) 0)) ∧
      (n ≤ s.cfg.obufSize →
        ∃ u, exec .chunkRead s = .next u ∧
          u = { s with
                obuf := u.obuf, outLen := BitVec.ofNat 32 n, tag := c.tag.pack,
                len := BitVec.ofNat 32 c.payload.length, chk := c.crc }.completed ∧
          (∀ a, u.obufByte a = if a < n then (chunkSerialize c).getD a 0 else s.obufByte a)))

/-! ## Errors and success, for every command -/

/-- An error writes the completion report and nothing else, for every command (60_exceptions R246). SOFT_RESET raises none
(R241). -/
def Obligations.ErrorWritesOnlyTheReport : Prop :=
  ∀ (i : Instr) (s t : State), exec i s = .next t → t.errCode ≠ 0 →
    t = s.failedWith t.errCode t.errInfo0 t.errInfo1 t.errPos

/-- A command that raises nothing sets BUSY = 0, DONE = 1, ERRCODE = 0 and leaves the ERR registers unchanged
(60_exceptions R247); SOFT_RESET resets them (44_control R231). -/
def Obligations.SuccessLeavesTheErrorRegisters : Prop :=
  ∀ (i : Instr) (s t : State), i ≠ .softReset → exec i s = .next t → t.errCode = 0 →
    t.busy = false ∧ t.done = true ∧ t.errInfo0 = s.errInfo0 ∧ t.errInfo1 = s.errInfo1 ∧ t.errPos = s.errPos

/-- Which error codes a command can complete with (60_exceptions R241): the kinds whose "raised by" names it, and 0. -/
def Obligations.EachCommandRaisesOnlyItsKinds : Prop :=
  ∀ (i : Instr) (s t : State), exec i s = .next t →
    t.errCode ∈ (match i with
      | .nop | .crcInit | .crcByte | .crcLoad | .pngClear | .pngFind | .softReset => [0]
      | .crcBuf => [0, 9]
      | .tagBytes | .tagText => [0, 1]
      | .chunkEncode => [0, 9, 1, 10]
      | .chunkDecode => [0, 9, 2, 3, 4, 1]
      | .pngParse => [0, 9, 6, 2, 3, 4, 1, 11]
      | .pngSerialize => [0, 10]
      | .pngAppend => [0, 9, 1, 11]
      | .pngRemove => [0, 1, 7]
      | .chunkRead => [0, 12, 10] : List (BitVec 8))

/-! ## Frames -/

/-- What each command leaves unchanged, but for the completion report: everything except the registers, the buffer and the
store its rule names (41_crc R146 to R149; 40_tag R127, R128; 42_chunk R166, R167; 43_container R195 to R201; 44_control
R230). SOFT_RESET has its own statement. -/
def Obligations.EachCommandWritesOnlyWhatItsRuleNames : Prop :=
  ∀ (i : Instr) (s t : State), exec i s = .next t →
    match i with
    | .nop => t = s.reportOf t
    | .crcInit | .crcByte | .crcBuf | .crcLoad => t = { s.reportOf t with crcState := t.crcState }
    | .tagBytes | .tagText => t = { s.reportOf t with tag := t.tag }
    | .chunkDecode => t = { s.reportOf t with tag := t.tag, len := t.len, chk := t.chk }
    | .chunkEncode | .chunkRead =>
      t = { s.reportOf t with tag := t.tag, len := t.len, chk := t.chk, outLen := t.outLen, obuf := t.obuf }
    | .pngSerialize => t = { s.reportOf t with outLen := t.outLen, obuf := t.obuf }
    | .pngParse | .pngClear => t = { s.reportOf t with store := t.store }
    | .pngAppend => t = { s.reportOf t with store := t.store, tag := t.tag, len := t.len, chk := t.chk }
    | .pngRemove => t = { s.reportOf t with store := t.store, index := t.index }
    | .pngFind => t = { s.reportOf t with found := t.found, index := t.index }
    | .softReset => t.ibuf = s.ibuf ∧ t.obuf = s.obuf ∧ t.cfg = s.cfg

/-- The commands that store nothing leave every byte of both buffers as it reads; no command writes IBUF; and a storing
command leaves every OBUF byte at or above its OUT_LEN, and on an error every byte (20_memory R71; 10_state R38; 70_reset
R284). -/
def Obligations.BufferBytesKeptOutsideTheOutput : Prop :=
  ∀ (i : Instr) (s t : State), s.cfg.legal = true → exec i s = .next t →
    (∀ a, t.ibufByte a = s.ibufByte a) ∧
    (i ≠ .chunkEncode → i ≠ .pngSerialize → i ≠ .chunkRead → ∀ a, t.obufByte a = s.obufByte a) ∧
    (t.errCode ≠ 0 → ∀ a, t.obufByte a = s.obufByte a) ∧
    (∀ a, t.outLen.toNat ≤ a → t.obufByte a = s.obufByte a)

/-- CRC_STATE is written only by CRC_INIT, CRC_BYTE, CRC_BUF, CRC_LOAD and reset: chunk, container and tag commands, NOP,
an illegal word and every host transaction leave it, and no chunk, container or tag command reads it (10_state R28). -/
def Obligations.OnlyCrcCommandsWriteTheCrcRegister : Prop :=
  (∀ (i : Instr) (s t : State), i ∉ [Instr.crcInit, .crcByte, .crcBuf, .crcLoad, .softReset] → exec i s = .next t →
    t.crcState = s.crcState) ∧
  (∀ (s t : State) (w : Word), completeIllegal s w = .next t → t.crcState = s.crcState) ∧
  (∀ s : State, s.hostTurn.crcState = s.crcState) ∧
  (∀ (i : Instr) (s t : State) (v : Word), i ∉ [Instr.crcInit, .crcByte, .crcBuf, .crcLoad, .softReset] →
    exec i s = .next t → exec i { s with crcState := v } = .next { t with crcState := v })

/-- The chunk store is only changed by the engine's steps (00_scope R15), and neither are the result registers, the ERR
registers and the parameters by the host: a host transaction changes only CTRL, STATUS, CMD, the operand registers, buffer
bytes, and the model's own fields. -/
def Obligations.HostTransactionsLeaveResultsAndStore : Prop :=
  ∀ s : State,
    let t := s.hostTurn
    t = { s with
          irqEn := t.irqEn, busy := t.busy, done := t.done, ovr := t.ovr, errCode := t.errCode, cmd := t.cmd,
          arg0 := t.arg0, tlen := t.tlen, ioff := t.ioff, ilen := t.ilen, ibuf := t.ibuf, obuf := t.obuf,
          host := t.host, reads := t.reads, draws := t.draws }

/-- No step changes the parameters (00_scope R7), and ID reads its constant in every state (10_state R21). -/
def Obligations.ParametersAndIdNeverChange : Prop :=
  ∀ s t : State, step s = .next t → t.cfg = s.cfg ∧ readReg t .id = 0x504E4731

/-- Operands a command does not read do not matter (30_encoding R91): with another value in such a register the command
does the same and keeps that value. SOFT_RESET reads none and resets them, so it does the same whatever they hold. -/
def Obligations.UnreadOperandsDoNotMatter : Prop :=
  (∀ (i : Instr) (s t : State) (v : Word), i ≠ .softReset → exec i s = .next t →
    (i ∈ [Instr.nop, .crcInit, .crcBuf, .chunkDecode, .pngParse, .pngSerialize, .pngClear] →
      exec i { s with arg0 := v } = .next { t with arg0 := v }) ∧
    (i ∉ [Instr.tagText, .pngRemove, .pngFind] → exec i { s with tlen := v } = .next { t with tlen := v }) ∧
    (i ∉ [Instr.crcBuf, .chunkEncode, .chunkDecode, .pngParse, .pngAppend] →
      exec i { s with ioff := v } = .next { t with ioff := v } ∧
      exec i { s with ilen := v } = .next { t with ilen := v })) ∧
  (∀ (s : State) (a b c d : Word),
    exec .softReset { s with arg0 := a, tlen := b, ioff := c, ilen := d } = exec .softReset s)

/-! ## Status, control and interrupt -/

/-- The fields of STATUS, ERR always (ERRCODE ≠ 0), and what a host write to it does while BUSY = 0 (10_state R24). -/
def Obligations.StatusFieldsAndWriteOneToClear : Prop :=
  (∀ s : State,
    (readReg s .status).getLsbD 0 = s.busy ∧ (readReg s .status).getLsbD 1 = s.done ∧
    (readReg s .status).getLsbD 2 = decide (s.errCode ≠ 0) ∧ (readReg s .status).getLsbD 3 = s.ovr ∧
    (readReg s .status).extractLsb' 4 4 = 0 ∧ (readReg s .status).extractLsb' 8 8 = s.errCode ∧
    (readReg s .status).extractLsb' 16 16 = 0) ∧
  (∀ (s : State) (v : Word), s.cfg.legal = true → s.busy = false →
    s.busWrite .w32 (s.cfg.base + 0x08) v =
      { s with done := if v.getLsbD 1 then false else s.done, ovr := if v.getLsbD 3 then false else s.ovr })

/-- CTRL stores bit 0, reads 0 in bits 31:1 and resets to 0; while it is 1 the interrupt output follows DONE; a write while
BUSY is ignored and sets OVR (10_state R23). -/
def Obligations.ControlKeepsOnlyItsEnableBit : Prop :=
  ∀ (s : State) (v : Word), s.cfg.legal = true →
    (readReg s .ctrl).getLsbD 0 = s.irqEn ∧ (readReg s .ctrl).extractLsb' 1 31 = 0 ∧
    (s.busy = false → s.busWrite .w32 (s.cfg.base + 0x04) v = { s with irqEn := v.getLsbD 0 }) ∧
    (s.busy = true → s.busWrite .w32 (s.cfg.base + 0x04) v = { s with ovr := true }) ∧
    (s.irqEn = true → s.irq = s.done) ∧ (s.irqEn = false → s.irq = false) ∧ readReg s.hwReset .ctrl = 0

/-- The interrupt output is the level IRQ_EN & DONE: up after a completion with the enable set, cleared by W1C, by an issue
and by SOFT_RESET, raised at once by setting the enable while DONE = 1 (60_exceptions R252). -/
def Obligations.InterruptFollowsEnableAndDone : Prop :=
  (∀ s : State, s.irq = true ↔ s.irqEn = true ∧ s.done = true) ∧
  (∀ (i : Instr) (s t : State), i ≠ .softReset → exec i s = .next t → t.irq = s.irqEn) ∧
  (∀ (s t : State), exec .softReset s = .next t → t.irq = false) ∧
  (∀ (s : State) (w : Word), (s.issue w).irq = false ∧ s.hwReset.irq = false) ∧
  (∀ (s : State) (v : Word), v.getLsbD 1 = true → (s.writeReg .status v).irq = false) ∧
  (∀ (s : State) (v : Word), v.getLsbD 0 = true → s.done = true → (s.writeReg .ctrl v).irq = true)

/-- TAG_FLAGS, bit by bit from the letters' case (40_tag R124, R122, R123; 10_state R31). -/
def Obligations.TagFlagsBits : Prop :=
  ∀ s : State,
    let f := readReg s .tagFlags
    f.getLsbD 0 = !(s.tag.getLsbD 29) ∧ f.getLsbD 1 = !(s.tag.getLsbD 21) ∧ f.getLsbD 2 = !(s.tag.getLsbD 13) ∧
    f.getLsbD 3 = s.tag.getLsbD 5 ∧ f.getLsbD 4 = f.getLsbD 2 ∧ f.extractLsb' 5 27 = 0

/-! ## The host bus -/

/-- A host write to CMD while BUSY = 0 issues the word, and a read of CMD returns it, or 0 after reset (10_state R25,
R26). -/
def Obligations.WriteToCmdIssues : Prop :=
  ∀ (s : State) (w : Word), s.cfg.legal = true → s.busy = false →
    s.busWrite .w32 (s.cfg.base + 0x0C) w = { s with cmd := w, busy := true, done := false, errCode := 0 } ∧
    (s.busWrite .w32 (s.cfg.base + 0x0C) w).pending = some w ∧
    (s.busWrite .w32 (s.cfg.base + 0x0C) w).busRead .w32 (s.cfg.base + 0x0C) = w ∧
    s.hwReset.busRead .w32 (s.cfg.base + 0x0C) = 0

/-- While BUSY = 1 a host write, of any width at any address, that covers a byte of one of the three windows changes nothing
but OVR (10_state R26; 70_reset R280). It is the model's reading that this takes in a malformed register access (log 7), a
reserved offset (log 9) and an access across windows (log 11). -/
def Obligations.WritesWhileBusyOnlySetOverrun : Prop :=
  ∀ (s : State) (wd : Width) (a : Nat) (v : Word), s.cfg.legal = true → s.busy = true →
    (AccessCovers s.cfg.base 0x100 wd a ∨
     AccessCovers (s.cfg.base + s.cfg.ibufOffset) s.cfg.ibufSize wd a ∨
     AccessCovers (s.cfg.base + s.cfg.obufOffset) s.cfg.obufSize wd a) →
    s.busWrite wd a v = { s with ovr := true }

/-- An operand register keeps what the host writes while BUSY = 0, and reads it back through the bus (10_state R22, R26). -/
def Obligations.OperandRegistersKeepWhatIsWritten : Prop :=
  ∀ (s : State) (v : Word), s.cfg.legal = true → s.busy = false →
    s.busWrite .w32 (s.cfg.base + 0x10) v = { s with arg0 := v } ∧
    s.busWrite .w32 (s.cfg.base + 0x14) v = { s with tlen := v } ∧
    s.busWrite .w32 (s.cfg.base + 0x18) v = { s with ioff := v } ∧
    s.busWrite .w32 (s.cfg.base + 0x1C) v = { s with ilen := v } ∧
    ∀ a ∈ [0x10, 0x14, 0x18, 0x1C],
      (s.busWrite .w32 (s.cfg.base + a) v).busRead .w32 (s.cfg.base + a) = v

/-- A write to a read-only register or to a reserved offset while BUSY = 0 is ignored, and a reserved offset reads 0
(10_state R40, R22, R21). -/
def Obligations.ReadOnlyAndReservedIgnoreWrites : Prop :=
  ∀ (s : State) (k : Nat) (v : Word), s.cfg.legal = true → k < 64 → s.busy = false →
    (k = 0 ∨ 8 ≤ k → s.busWrite .w32 (s.cfg.base + 4 * k) v = s) ∧
    (21 ≤ k → s.busRead .w32 (s.cfg.base + 4 * k) = 0)

/-- A register access of another width, or at a misaligned address, has no effect while BUSY = 0: a write is ignored, a read
returns 0, no flag is set (20_memory R69). While BUSY = 1 a read returns 0 too and a write is ignored and sets OVR like every
other (10_state R26): that is the model's reading of the two rules (log 7). The access covers a register byte and no buffer
byte; it may reach past the window's ends (log 11). -/
def Obligations.MalformedRegisterAccessHasNoEffect : Prop :=
  ∀ (s : State) (wd : Width) (a : Nat) (v : Word), s.cfg.legal = true →
    AccessCovers s.cfg.base 0x100 wd a →
    ¬ AccessCovers (s.cfg.base + s.cfg.ibufOffset) s.cfg.ibufSize wd a →
    ¬ AccessCovers (s.cfg.base + s.cfg.obufOffset) s.cfg.obufSize wd a →
    (wd ≠ .w32 ∨ a % 4 ≠ 0) →
    s.busRead wd a = 0 ∧ s.busWrite wd a v = if s.busy = true then { s with ovr := true } else s

/-- An access of any width at any address that covers a byte of IBUF, wherever it begins, moves IBUF's bytes little-endian:
the byte at the lowest address is the least significant, a byte outside the buffer windows reads 0 and is not written, and
nothing else changes (20_memory R67, R70, R62). A read does the same while BUSY = 1 (70_reset R282). A byte of OBUF that the
access covers too is in OutputBufferAccessIsLittleEndian (log 11). -/
def Obligations.InputBufferAccessIsLittleEndian : Prop :=
  ∀ (s : State) (wd : Width) (a : Nat) (v : Word), s.cfg.legal = true →
    let lo := s.cfg.base + s.cfg.ibufOffset
    AccessCovers lo s.cfg.ibufSize wd a →
    (∀ i < wd.bytes, ∀ x < s.cfg.ibufSize, a + i = lo + x → (s.busRead wd a).extractLsb' (8 * i) 8 = s.ibufByte x) ∧
    (∀ i, (i < wd.bytes → ¬ AccessCovers lo s.cfg.ibufSize .w8 (a + i) ∧
        ¬ AccessCovers (s.cfg.base + s.cfg.obufOffset) s.cfg.obufSize .w8 (a + i)) →
      (s.busRead wd a).extractLsb' (8 * i) 8 = 0) ∧
    (s.busy = false →
      let t := s.busWrite wd a v
      t = { s with ibuf := t.ibuf, obuf := t.obuf } ∧
      (∀ y, t.ibufByte y =
        if y < s.cfg.ibufSize ∧ a ≤ lo + y ∧ lo + y < a + wd.bytes then v.extractLsb' (8 * (lo + y - a)) 8
        else s.ibufByte y) ∧
      (¬ AccessCovers (s.cfg.base + s.cfg.obufOffset) s.cfg.obufSize wd a → t.obuf = s.obuf))

/-- The same of an access that covers a byte of OBUF (20_memory R67, R70, R63; 10_state R38). A read while BUSY = 1 returns a
free value for each OBUF byte it covers (70_reset R282; its form is log 5), 0 for a byte outside the buffer windows. -/
def Obligations.OutputBufferAccessIsLittleEndian : Prop :=
  ∀ (s : State) (wd : Width) (a : Nat) (v : Word), s.cfg.legal = true →
    let lo := s.cfg.base + s.cfg.obufOffset
    AccessCovers lo s.cfg.obufSize wd a →
    (∀ i < wd.bytes, ∀ x < s.cfg.obufSize, a + i = lo + x →
      (s.busRead wd a).extractLsb' (8 * i) 8 = if s.busy = true then Config.busyByte s.draws x else s.obufByte x) ∧
    (∀ i, (i < wd.bytes → ¬ AccessCovers lo s.cfg.obufSize .w8 (a + i) ∧
        ¬ AccessCovers (s.cfg.base + s.cfg.ibufOffset) s.cfg.ibufSize .w8 (a + i)) →
      (s.busRead wd a).extractLsb' (8 * i) 8 = 0) ∧
    (s.busy = false →
      let t := s.busWrite wd a v
      t = { s with ibuf := t.ibuf, obuf := t.obuf } ∧
      (∀ y, t.obufByte y =
        if y < s.cfg.obufSize ∧ a ≤ lo + y ∧ lo + y < a + wd.bytes then v.extractLsb' (8 * (lo + y - a)) 8
        else s.obufByte y) ∧
      (¬ AccessCovers (s.cfg.base + s.cfg.ibufOffset) s.cfg.ibufSize wd a → t.ibuf = s.ibuf))

/-- A read has no side effect of any register or buffer byte (20_memory R72): a host read changes only the model's record of
it, and may be repeated with the same result while BUSY = 0 when it touches the block. -/
def Obligations.ReadsHaveNoSideEffect : Prop :=
  ∀ (s : State) (wd : Width) (a : Nat) (rest : List HostOp), s.host = .read wd a :: rest →
    s.hostTurn = { s with host := rest, reads := s.busRead wd a :: s.reads, draws := s.draws + 1 } ∧
    (s.busy = false → touchesBlock s.cfg wd a = true →
      s.hostTurn.busRead wd a = s.busRead wd a)

/-- Reads of registers, idle and while BUSY (70_reset R282): ID, CTRL, STATUS, CMD and the operand registers always return
their value, and so does an IBUF byte; every other register and an OBUF byte return their value while BUSY = 0 (10_state R22;
20_memory R62, R63) and a free value while BUSY = 1, whose form, by read count, is the model's choice (log 5). -/
def Obligations.RegisterReadsIdleAndBusy : Prop :=
  ∀ (s : State) (r : Reg), s.cfg.legal = true →
    s.busRead .w32 (s.cfg.base + r.offset) =
        (if s.busy = true ∧ r ∉ [Reg.id, .ctrl, .status, .cmd, .arg0, .tlen, .ioff, .ilen] then Config.busyWord s.draws
        else readReg s r) ∧
    (∀ x < s.cfg.ibufSize,
      s.busRead .w8 (s.cfg.base + s.cfg.ibufOffset + x) = (s.ibufByte x).setWidth 32) ∧
    (∀ x < s.cfg.obufSize,
      s.busRead .w8 (s.cfg.base + s.cfg.obufOffset + x) =
        (if s.busy = true then Config.busyByte s.draws x else s.obufByte x).setWidth 32)

/-! ## The CRC-32 function -/

/-- The table's listing is the output of its loop (41_crc R141), with its landmarks, and gives the source's checksum:
crc32("RuSt" ++ the 42-byte payload) = 2882656334 (R150). -/
def Obligations.CrcTableIsItsLoopAndGivesTheSourceChecksum : Prop :=
  (∀ n < 256, crcTableAt n = crcTableLoop n) ∧
  crcTableAt 0x00 = 0x00000000 ∧ crcTableAt 0x01 = 0x77073096 ∧ crcTableAt 0x80 = 0xEDB88320 ∧
  crcTableAt 0xFF = 0x2D02EF8D ∧
  crc32 .table
    ([0x52, 0x75, 0x53, 0x74] ++
      [0x54, 0x68, 0x69, 0x73, 0x20, 0x69, 0x73, 0x20, 0x77, 0x68, 0x65, 0x72, 0x65, 0x20, 0x79, 0x6F, 0x75, 0x72, 0x20,
       0x73, 0x65, 0x63] ++
      [0x72, 0x65, 0x74, 0x20, 0x6D, 0x65, 0x73, 0x73, 0x61, 0x67, 0x65, 0x20, 0x77, 0x69, 0x6C, 0x6C, 0x20, 0x62, 0x65,
       0x21]) = BitVec.ofNat 32 2882656334

/-- The bit-serial step equals the table step for every CRC value and byte, so CRC_IMPL has no functional effect
(41_crc R144; 00_scope R3). -/
def Obligations.BitSerialStepEqualsTableStep : Prop :=
  (∀ (c : Word) (b : Byte), crcStepBits c b = crcStepTable c b) ∧
  (∀ (impl impl' : CrcImpl) (c : Word) (s : List Byte), crcRun impl c s = crcRun impl' c s)

/-- Two configurations that differ only in CRC_IMPL give every command the same outcome (00_scope R3: "The two forms give
identical results for every input"). -/
def Obligations.CrcImplHasNoFunctionalEffect : Prop :=
  ∀ (i : Instr) (s t : State) (impl : CrcImpl), exec i s = .next t →
    exec i { s with cfg := { s.cfg with crcImpl := impl } } = .next { t with cfg := { s.cfg with crcImpl := impl } }

/-- The streaming law and its two consequences (41_crc R145), and what it says of the commands: CRC_BUF over two adjacent
ranges in turn leaves the CRC_STATE of CRC_BUF over the whole range, and CRC_BYTE feeds a sequence of one byte. -/
def Obligations.CrcStreamingLaw : Prop :=
  (∀ (impl : CrcImpl) (c : Word) (s u : List Byte), crcRun impl c (s ++ u) = crcRun impl (crcRun impl c s) u) ∧
  (∀ s : State, exec .crcByte s =
    .next { s with crcState := crcRun s.cfg.crcImpl s.crcState [s.arg0.extractLsb' 0 8] }.completed) ∧
  (∀ impl : CrcImpl, crc32 impl [] = 0) ∧
  (∀ (impl : CrcImpl) (s : List Byte), (∀ b ∈ s, b = 0) → crcRun impl 0 s = 0) ∧
  (∀ (s t u v : State) (n m : Word), n.toNat + m.toNat < 2 ^ 32 → s.ioff.toNat + n.toNat < 2 ^ 32 →
    s.ioff.toNat + (n + m).toNat ≤ s.cfg.ibufSize →
    exec .crcBuf { s with ilen := n } = .next t →
    exec .crcBuf { t with ioff := s.ioff + n, ilen := m } = .next u →
    exec .crcBuf { s with ilen := n + m } = .next v →
    u.crcState = v.crcState)

/-! ## Chunks and containers -/

/-- Round trip of chunks, both directions (42_chunk R165). -/
def Obligations.ChunkRoundTrip : Prop :=
  (∀ (impl : CrcImpl) (c : Chunk), Chunk.Wf impl c → chunkDecode impl (chunkSerialize c) = .ok c) ∧
  (∀ (impl : CrcImpl) (s : List Byte) (c : Chunk), chunkDecode impl s = .ok c →
    chunkSerialize c = s ∧ Chunk.Wf impl c)

/-- Round trip of containers within capacity (43_container R194). -/
def Obligations.ContainerRoundTrip : Prop :=
  ∀ (cfg : Config) (l : List Chunk), cfg.legal = true → (∀ c ∈ l, Chunk.Wf cfg.crcImpl c) →
    l.length ≤ cfg.maxChunks → (l.map fun c => c.payload.length).sum ≤ cfg.storeBytes →
    containerParse cfg (containerSerialize cfg l) = .ok l

/-- The first chunk that fails ends the parse, whatever stands before it (43_container R192). A malformed one ends it with
its decode error at its offset; the slice handed to decode is all the bytes left when fewer than 4 are, else the chunk's
declared length + 12 or what is left. A well-formed one that would pass a capacity bound ends it with StoreFull, the counts
that would result and the chunk's offset (60_exceptions R243). -/
def Obligations.ParseStopsAtTheFirstFailingChunk : Prop :=
  ∀ (cfg : Config) (l : List Chunk), cfg.legal = true →
    (∀ c ∈ l, Chunk.Wf cfg.crcImpl c) → l.length ≤ cfg.maxChunks →
    (l.map fun c => c.payload.length).sum ≤ cfg.storeBytes →
    let wire := (l.map chunkSerialize).flatten
    let bytes := (l.map fun d => d.payload.length).sum
    (∀ (rest : List Byte) (e : CmdError), rest ≠ [] →
      chunkDecode cfg.crcImpl
        (rest.take (if rest.length < 4 then rest.length else min ((be32 rest).toNat + 12) rest.length)) = .error e →
      containerParse cfg (cfg.signature ++ wire ++ rest) =
        .error { e with pos := BitVec.ofNat 32 (8 + wire.length) }) ∧
    (∀ (c : Chunk) (rest : List Byte), Chunk.Wf cfg.crcImpl c →
      (cfg.maxChunks < l.length + 1 ∨ cfg.storeBytes < bytes + c.payload.length) →
      ∃ total, containerParse cfg (cfg.signature ++ wire ++ chunkSerialize c ++ rest) =
          .error ⟨.storeFull, BitVec.ofNat 32 (l.length + 1), total, BitVec.ofNat 32 (8 + wire.length)⟩ ∧
        (bytes + c.payload.length < 2 ^ 32 → total = BitVec.ofNat 32 (bytes + c.payload.length)))

/-- Changing one byte of the tag, payload or checksum region of a serialized chunk, by one bit or more, makes decode fail
with InvalidChunkCrc (42_chunk R168, which claims it for one bit). -/
def Obligations.TamperedByteFailsTheChecksum : Prop :=
  ∀ (impl : CrcImpl) (c : Chunk) (k : Nat) (b : Byte), Chunk.Wf impl c →
    4 ≤ k → k < c.payload.length + 12 → b ≠ (chunkSerialize c).getD k 0 →
    ∃ e, chunkDecode impl ((chunkSerialize c).set k b) = .error e ∧ e.kind = .invalidChunkCrc

/-- A changed length field makes decode fail with InvalidChunkLength, for every other value of it (42_chunk R168; the sum
L + 8 is exact, 00_scope R14). -/
def Obligations.ChangedLengthFieldFails : Prop :=
  ∀ (impl : CrcImpl) (c : Chunk) (len : Word), Chunk.Wf impl c → len ≠ BitVec.ofNat 32 c.payload.length →
    chunkDecode impl (be32bytes len ++ (chunkSerialize c).drop 4) =
      .error ⟨.invalidChunkLength, len, BitVec.ofNat 32 c.payload.length, 0⟩

/-- The container properties (43_container R203): after PNG_APPEND of a tag succeeds, PNG_FIND of it finds, the appended
chunk when no earlier chunk has the tag, else the first earlier one; after PNG_REMOVE of a tag present once, PNG_FIND does not
find it and the store has one chunk less; PNG_REMOVE of an absent tag fails with ChunkNotFound and leaves STORE. -/
def Obligations.AppendFindRemoveProperties : Prop :=
  (∀ s t : State, s.cfg.legal = true → s.tlen = 4 → exec .pngAppend s = .next t → t.errCode = 0 →
    ∃ u, exec .pngFind t = .next u ∧ u.found = true ∧
      ((∀ c ∈ s.store, c.tag ≠ Tag.unpack s.arg0) → u.index = BitVec.ofNat 32 s.store.length) ∧
      (∀ before c after, s.store = before ++ c :: after → c.tag = Tag.unpack s.arg0 →
        (∀ d ∈ before, d.tag ≠ Tag.unpack s.arg0) → u.index = BitVec.ofNat 32 before.length)) ∧
  (∀ s t : State, s.tlen = 4 → (Tag.unpack s.arg0).letters = true → exec .pngRemove s = .next t →
    (s.store.countP (fun c => decide (c.tag = Tag.unpack s.arg0)) = 1 →
      t.store.length + 1 = s.store.length ∧ ∃ u, exec .pngFind t = .next u ∧ u.found = false) ∧
    (s.store.countP (fun c => decide (c.tag = Tag.unpack s.arg0)) = 0 →
      t.errCode = 7 ∧ t.store = s.store))

/-! ## Invariants -/

/-- The state after reset meets the invariant. -/
def Obligations.InvariantHoldsAtReset : Prop :=
  Sys2Proof.core.reset.Inv

/-- Every step keeps the invariant, from every state that has it: the parameters' constraints, the buffers' canonical form
and bounds, the chunk-value invariant and capacity of STORE (10_state R36, R37), a legal error code (60_exceptions R241), a
TAG of letters or 0 (10_state R30), an OUT_LEN inside OBUF. -/
def Obligations.StepKeepsTheInvariant : Prop :=
  ∀ s t : State, s.Inv → step s = .next t → t.Inv

/-! ## Host programs -/

/-- Every statement of R104 is its bus transactions, every pseudo-statement of R105 its expansion, and a program their list
in order (R106, with its two examples), with BASE and the offsets as parameters. `wait` is one entry of the list, which a
host turn keeps while STATUS bit 0 reads 1 and takes off when it reads 0 (R104, R106; the list is log 2). For a tag text of
2^32 bytes or more the word written to TLEN is the model's choice, a free value (log 17). -/
def Obligations.HostStatementsAreTheirTransactions : Prop :=
  (∀ c : Config,
    (∀ p q, encodeProgram c (p ++ q) = encodeProgram c p ++ encodeProgram c q) ∧
    (∀ r v, encodeProgram c [.wr r v] = [.write .w32 (c.base + r.offset) v]) ∧
    (∀ r, encodeProgram c [.rd r] = [.read .w32 (c.base + r.offset)]) ∧
    (∀ a (bs : List Byte), encodeProgram c [.wbIbuf a bs] = (List.range bs.length).map fun i =>
      HostOp.write .w8 (c.base + c.ibufOffset + a + i) ((bs.getD i 0).setWidth 32)) ∧
    (∀ a v, encodeProgram c [.wwIbuf a v] = [.write .w32 (c.base + c.ibufOffset + a) v]) ∧
    (∀ a, encodeProgram c [.rbObuf a] = [.read .w8 (c.base + c.obufOffset + a)]) ∧
    (∀ a (bs : List Byte), encodeProgram c [.wbObuf a bs] = (List.range bs.length).map fun i =>
      HostOp.write .w8 (c.base + c.obufOffset + a + i) ((bs.getD i 0).setWidth 32)) ∧
    (∀ i, encodeProgram c [.cmd i] = [.write .w32 (c.base + 0x0C) (encode i)]) ∧
    encodeProgram c [.wait] = [.wait] ∧
    (∀ i, encodeProgram c [.exec i] = encodeProgram c [.cmd i, .wait]) ∧
    (∀ a n, encodeProgram c [.range a n] = encodeProgram c [.wr .ioff a, .wr .ilen n]) ∧
    (∀ t, encodeProgram c [.tag t] = encodeProgram c [.wr .arg0 t.pack]) ∧
    (∀ s : List Byte, ∃ n, (s.length < 2 ^ 32 → n = BitVec.ofNat 32 s.length) ∧
      encodeProgram c [.tagtext s] =
        encodeProgram c [.wr .tlen n, .wr .arg0 (if s.length = 4 then be32 s else 0)]) ∧
    (∀ a n, encodeProgram c [.crc32 a n] =
      encodeProgram c [.range a n, .exec .crcInit, .exec .crcBuf, .rd .crcResult]) ∧
    encodeProgram c [.check] = encodeProgram c [.rd .status] ∧
    encodeProgram c [.tag ⟨0x52, 0x75, 0x53, 0x74⟩] = [.write .w32 (c.base + 0x10) 0x52755374] ∧
    encodeProgram c [.cmd .chunkEncode] = [.write .w32 (c.base + 0x0C) 0x00000020]) ∧
  (∀ (s : State) (rest : List HostOp), s.cfg.legal = true → s.host = encodeProgram s.cfg [.wait] ++ rest →
    s.hostTurn =
      { s with
        host := if (readReg s .status).getLsbD 0 then s.host else rest,
        reads := readReg s .status :: s.reads, draws := s.draws + 1 })
end

