-- ==== Sys2Proof/Laws/State.lean ====
section
/-! SUPPORT. One lemma per field per update of the state, each true by rfl, so that no later proof unfolds a record
update. -/

namespace Sys2Proof.Machine

variable (s : State)

/-! ### raise: An error writes the completion report and nothing else (60_exceptions R246). -/

@[simp] theorem raise_cfg (e : CmdError) : (s.raise e).cfg = s.cfg := rfl
@[simp] theorem raise_irqEn (e : CmdError) : (s.raise e).irqEn = s.irqEn := rfl
@[simp] theorem raise_busy (e : CmdError) : (s.raise e).busy = false := rfl
@[simp] theorem raise_done (e : CmdError) : (s.raise e).done = true := rfl
@[simp] theorem raise_ovr (e : CmdError) : (s.raise e).ovr = s.ovr := rfl
@[simp] theorem raise_errCode (e : CmdError) : (s.raise e).errCode = e.kind.code := rfl
@[simp] theorem raise_cmd (e : CmdError) : (s.raise e).cmd = s.cmd := rfl
@[simp] theorem raise_arg0 (e : CmdError) : (s.raise e).arg0 = s.arg0 := rfl
@[simp] theorem raise_tlen (e : CmdError) : (s.raise e).tlen = s.tlen := rfl
@[simp] theorem raise_ioff (e : CmdError) : (s.raise e).ioff = s.ioff := rfl
@[simp] theorem raise_ilen (e : CmdError) : (s.raise e).ilen = s.ilen := rfl
@[simp] theorem raise_crcState (e : CmdError) : (s.raise e).crcState = s.crcState := rfl
@[simp] theorem raise_tag (e : CmdError) : (s.raise e).tag = s.tag := rfl
@[simp] theorem raise_len (e : CmdError) : (s.raise e).len = s.len := rfl
@[simp] theorem raise_chk (e : CmdError) : (s.raise e).chk = s.chk := rfl
@[simp] theorem raise_outLen (e : CmdError) : (s.raise e).outLen = s.outLen := rfl
@[simp] theorem raise_index (e : CmdError) : (s.raise e).index = s.index := rfl
@[simp] theorem raise_found (e : CmdError) : (s.raise e).found = s.found := rfl
@[simp] theorem raise_errInfo0 (e : CmdError) : (s.raise e).errInfo0 = e.info0 := rfl
@[simp] theorem raise_errInfo1 (e : CmdError) : (s.raise e).errInfo1 = e.info1 := rfl
@[simp] theorem raise_errPos (e : CmdError) : (s.raise e).errPos = e.pos := rfl
@[simp] theorem raise_store (e : CmdError) : (s.raise e).store = s.store := rfl
@[simp] theorem raise_ibuf (e : CmdError) : (s.raise e).ibuf = s.ibuf := rfl
@[simp] theorem raise_obuf (e : CmdError) : (s.raise e).obuf = s.obuf := rfl
@[simp] theorem raise_resets (e : CmdError) : (s.raise e).resets = s.resets := rfl
@[simp] theorem raise_draws (e : CmdError) : (s.raise e).draws = s.draws := rfl
@[simp] theorem raise_host (e : CmdError) : (s.raise e).host = s.host := rfl
@[simp] theorem raise_turns (e : CmdError) : (s.raise e).turns = s.turns := rfl
@[simp] theorem raise_reads (e : CmdError) : (s.raise e).reads = s.reads := rfl

/-! ### succeed: A completion without an error writes STATUS only (60_exceptions R247). -/

@[simp] theorem succeed_cfg : (s.succeed).cfg = s.cfg := rfl
@[simp] theorem succeed_irqEn : (s.succeed).irqEn = s.irqEn := rfl
@[simp] theorem succeed_busy : (s.succeed).busy = false := rfl
@[simp] theorem succeed_done : (s.succeed).done = true := rfl
@[simp] theorem succeed_ovr : (s.succeed).ovr = s.ovr := rfl
@[simp] theorem succeed_errCode : (s.succeed).errCode = 0 := rfl
@[simp] theorem succeed_cmd : (s.succeed).cmd = s.cmd := rfl
@[simp] theorem succeed_arg0 : (s.succeed).arg0 = s.arg0 := rfl
@[simp] theorem succeed_tlen : (s.succeed).tlen = s.tlen := rfl
@[simp] theorem succeed_ioff : (s.succeed).ioff = s.ioff := rfl
@[simp] theorem succeed_ilen : (s.succeed).ilen = s.ilen := rfl
@[simp] theorem succeed_crcState : (s.succeed).crcState = s.crcState := rfl
@[simp] theorem succeed_tag : (s.succeed).tag = s.tag := rfl
@[simp] theorem succeed_len : (s.succeed).len = s.len := rfl
@[simp] theorem succeed_chk : (s.succeed).chk = s.chk := rfl
@[simp] theorem succeed_outLen : (s.succeed).outLen = s.outLen := rfl
@[simp] theorem succeed_index : (s.succeed).index = s.index := rfl
@[simp] theorem succeed_found : (s.succeed).found = s.found := rfl
@[simp] theorem succeed_errInfo0 : (s.succeed).errInfo0 = s.errInfo0 := rfl
@[simp] theorem succeed_errInfo1 : (s.succeed).errInfo1 = s.errInfo1 := rfl
@[simp] theorem succeed_errPos : (s.succeed).errPos = s.errPos := rfl
@[simp] theorem succeed_store : (s.succeed).store = s.store := rfl
@[simp] theorem succeed_ibuf : (s.succeed).ibuf = s.ibuf := rfl
@[simp] theorem succeed_obuf : (s.succeed).obuf = s.obuf := rfl
@[simp] theorem succeed_resets : (s.succeed).resets = s.resets := rfl
@[simp] theorem succeed_draws : (s.succeed).draws = s.draws := rfl
@[simp] theorem succeed_host : (s.succeed).host = s.host := rfl
@[simp] theorem succeed_turns : (s.succeed).turns = s.turns := rfl
@[simp] theorem succeed_reads : (s.succeed).reads = s.reads := rfl

/-! ### issue: Issue (10_state R26). -/

@[simp] theorem issue_cfg (w : Word) : (s.issue w).cfg = s.cfg := rfl
@[simp] theorem issue_irqEn (w : Word) : (s.issue w).irqEn = s.irqEn := rfl
@[simp] theorem issue_busy (w : Word) : (s.issue w).busy = true := rfl
@[simp] theorem issue_done (w : Word) : (s.issue w).done = false := rfl
@[simp] theorem issue_ovr (w : Word) : (s.issue w).ovr = s.ovr := rfl
@[simp] theorem issue_errCode (w : Word) : (s.issue w).errCode = 0 := rfl
@[simp] theorem issue_cmd (w : Word) : (s.issue w).cmd = w := rfl
@[simp] theorem issue_arg0 (w : Word) : (s.issue w).arg0 = s.arg0 := rfl
@[simp] theorem issue_tlen (w : Word) : (s.issue w).tlen = s.tlen := rfl
@[simp] theorem issue_ioff (w : Word) : (s.issue w).ioff = s.ioff := rfl
@[simp] theorem issue_ilen (w : Word) : (s.issue w).ilen = s.ilen := rfl
@[simp] theorem issue_crcState (w : Word) : (s.issue w).crcState = s.crcState := rfl
@[simp] theorem issue_tag (w : Word) : (s.issue w).tag = s.tag := rfl
@[simp] theorem issue_len (w : Word) : (s.issue w).len = s.len := rfl
@[simp] theorem issue_chk (w : Word) : (s.issue w).chk = s.chk := rfl
@[simp] theorem issue_outLen (w : Word) : (s.issue w).outLen = s.outLen := rfl
@[simp] theorem issue_index (w : Word) : (s.issue w).index = s.index := rfl
@[simp] theorem issue_found (w : Word) : (s.issue w).found = s.found := rfl
@[simp] theorem issue_errInfo0 (w : Word) : (s.issue w).errInfo0 = s.errInfo0 := rfl
@[simp] theorem issue_errInfo1 (w : Word) : (s.issue w).errInfo1 = s.errInfo1 := rfl
@[simp] theorem issue_errPos (w : Word) : (s.issue w).errPos = s.errPos := rfl
@[simp] theorem issue_store (w : Word) : (s.issue w).store = s.store := rfl
@[simp] theorem issue_ibuf (w : Word) : (s.issue w).ibuf = s.ibuf := rfl
@[simp] theorem issue_obuf (w : Word) : (s.issue w).obuf = s.obuf := rfl
@[simp] theorem issue_resets (w : Word) : (s.issue w).resets = s.resets := rfl
@[simp] theorem issue_draws (w : Word) : (s.issue w).draws = s.draws := rfl
@[simp] theorem issue_host (w : Word) : (s.issue w).host = s.host := rfl
@[simp] theorem issue_turns (w : Word) : (s.issue w).turns = s.turns := rfl
@[simp] theorem issue_reads (w : Word) : (s.issue w).reads = s.reads := rfl

/-! ### writeOutput: Output placement (30_encoding R100). -/

@[simp] theorem writeOutput_cfg (out : List Byte) : (s.writeOutput out).cfg = s.cfg := rfl
@[simp] theorem writeOutput_irqEn (out : List Byte) : (s.writeOutput out).irqEn = s.irqEn := rfl
@[simp] theorem writeOutput_busy (out : List Byte) : (s.writeOutput out).busy = s.busy := rfl
@[simp] theorem writeOutput_done (out : List Byte) : (s.writeOutput out).done = s.done := rfl
@[simp] theorem writeOutput_ovr (out : List Byte) : (s.writeOutput out).ovr = s.ovr := rfl
@[simp] theorem writeOutput_errCode (out : List Byte) : (s.writeOutput out).errCode = s.errCode := rfl
@[simp] theorem writeOutput_cmd (out : List Byte) : (s.writeOutput out).cmd = s.cmd := rfl
@[simp] theorem writeOutput_arg0 (out : List Byte) : (s.writeOutput out).arg0 = s.arg0 := rfl
@[simp] theorem writeOutput_tlen (out : List Byte) : (s.writeOutput out).tlen = s.tlen := rfl
@[simp] theorem writeOutput_ioff (out : List Byte) : (s.writeOutput out).ioff = s.ioff := rfl
@[simp] theorem writeOutput_ilen (out : List Byte) : (s.writeOutput out).ilen = s.ilen := rfl
@[simp] theorem writeOutput_crcState (out : List Byte) : (s.writeOutput out).crcState = s.crcState := rfl
@[simp] theorem writeOutput_tag (out : List Byte) : (s.writeOutput out).tag = s.tag := rfl
@[simp] theorem writeOutput_len (out : List Byte) : (s.writeOutput out).len = s.len := rfl
@[simp] theorem writeOutput_chk (out : List Byte) : (s.writeOutput out).chk = s.chk := rfl
@[simp] theorem writeOutput_outLen (out : List Byte) : (s.writeOutput out).outLen = count out.length := rfl
@[simp] theorem writeOutput_index (out : List Byte) : (s.writeOutput out).index = s.index := rfl
@[simp] theorem writeOutput_found (out : List Byte) : (s.writeOutput out).found = s.found := rfl
@[simp] theorem writeOutput_errInfo0 (out : List Byte) : (s.writeOutput out).errInfo0 = s.errInfo0 := rfl
@[simp] theorem writeOutput_errInfo1 (out : List Byte) : (s.writeOutput out).errInfo1 = s.errInfo1 := rfl
@[simp] theorem writeOutput_errPos (out : List Byte) : (s.writeOutput out).errPos = s.errPos := rfl
@[simp] theorem writeOutput_store (out : List Byte) : (s.writeOutput out).store = s.store := rfl
@[simp] theorem writeOutput_ibuf (out : List Byte) : (s.writeOutput out).ibuf = s.ibuf := rfl
@[simp] theorem writeOutput_obuf (out : List Byte) : (s.writeOutput out).obuf = Memory.writeSeq s.obuf 0 out := rfl
@[simp] theorem writeOutput_resets (out : List Byte) : (s.writeOutput out).resets = s.resets := rfl
@[simp] theorem writeOutput_draws (out : List Byte) : (s.writeOutput out).draws = s.draws := rfl
@[simp] theorem writeOutput_host (out : List Byte) : (s.writeOutput out).host = s.host := rfl
@[simp] theorem writeOutput_turns (out : List Byte) : (s.writeOutput out).turns = s.turns := rfl
@[simp] theorem writeOutput_reads (out : List Byte) : (s.writeOutput out).reads = s.reads := rfl

/-! ### producedChunk: TAG, LEN and CHK (10_state R30, R32). -/

@[simp] theorem producedChunk_cfg (c : Chunk) : (s.producedChunk c).cfg = s.cfg := rfl
@[simp] theorem producedChunk_irqEn (c : Chunk) : (s.producedChunk c).irqEn = s.irqEn := rfl
@[simp] theorem producedChunk_busy (c : Chunk) : (s.producedChunk c).busy = s.busy := rfl
@[simp] theorem producedChunk_done (c : Chunk) : (s.producedChunk c).done = s.done := rfl
@[simp] theorem producedChunk_ovr (c : Chunk) : (s.producedChunk c).ovr = s.ovr := rfl
@[simp] theorem producedChunk_errCode (c : Chunk) : (s.producedChunk c).errCode = s.errCode := rfl
@[simp] theorem producedChunk_cmd (c : Chunk) : (s.producedChunk c).cmd = s.cmd := rfl
@[simp] theorem producedChunk_arg0 (c : Chunk) : (s.producedChunk c).arg0 = s.arg0 := rfl
@[simp] theorem producedChunk_tlen (c : Chunk) : (s.producedChunk c).tlen = s.tlen := rfl
@[simp] theorem producedChunk_ioff (c : Chunk) : (s.producedChunk c).ioff = s.ioff := rfl
@[simp] theorem producedChunk_ilen (c : Chunk) : (s.producedChunk c).ilen = s.ilen := rfl
@[simp] theorem producedChunk_crcState (c : Chunk) : (s.producedChunk c).crcState = s.crcState := rfl
@[simp] theorem producedChunk_tag (c : Chunk) : (s.producedChunk c).tag = c.tag.pack := rfl
@[simp] theorem producedChunk_len (c : Chunk) : (s.producedChunk c).len = count c.payload.length := rfl
@[simp] theorem producedChunk_chk (c : Chunk) : (s.producedChunk c).chk = c.crc := rfl
@[simp] theorem producedChunk_outLen (c : Chunk) : (s.producedChunk c).outLen = s.outLen := rfl
@[simp] theorem producedChunk_index (c : Chunk) : (s.producedChunk c).index = s.index := rfl
@[simp] theorem producedChunk_found (c : Chunk) : (s.producedChunk c).found = s.found := rfl
@[simp] theorem producedChunk_errInfo0 (c : Chunk) : (s.producedChunk c).errInfo0 = s.errInfo0 := rfl
@[simp] theorem producedChunk_errInfo1 (c : Chunk) : (s.producedChunk c).errInfo1 = s.errInfo1 := rfl
@[simp] theorem producedChunk_errPos (c : Chunk) : (s.producedChunk c).errPos = s.errPos := rfl
@[simp] theorem producedChunk_store (c : Chunk) : (s.producedChunk c).store = s.store := rfl
@[simp] theorem producedChunk_ibuf (c : Chunk) : (s.producedChunk c).ibuf = s.ibuf := rfl
@[simp] theorem producedChunk_obuf (c : Chunk) : (s.producedChunk c).obuf = s.obuf := rfl
@[simp] theorem producedChunk_resets (c : Chunk) : (s.producedChunk c).resets = s.resets := rfl
@[simp] theorem producedChunk_draws (c : Chunk) : (s.producedChunk c).draws = s.draws := rfl
@[simp] theorem producedChunk_host (c : Chunk) : (s.producedChunk c).host = s.host := rfl
@[simp] theorem producedChunk_turns (c : Chunk) : (s.producedChunk c).turns = s.turns := rfl
@[simp] theorem producedChunk_reads (c : Chunk) : (s.producedChunk c).reads = s.reads := rfl

/-! ### resetRegisters: The reset values of the registers and of STORE (10_state R41). -/

@[simp] theorem resetRegisters_cfg : (s.resetRegisters).cfg = s.cfg := rfl
@[simp] theorem resetRegisters_irqEn : (s.resetRegisters).irqEn = false := rfl
@[simp] theorem resetRegisters_busy : (s.resetRegisters).busy = false := rfl
@[simp] theorem resetRegisters_done : (s.resetRegisters).done = false := rfl
@[simp] theorem resetRegisters_ovr : (s.resetRegisters).ovr = false := rfl
@[simp] theorem resetRegisters_errCode : (s.resetRegisters).errCode = 0 := rfl
@[simp] theorem resetRegisters_cmd : (s.resetRegisters).cmd = 0 := rfl
@[simp] theorem resetRegisters_arg0 : (s.resetRegisters).arg0 = 0 := rfl
@[simp] theorem resetRegisters_tlen : (s.resetRegisters).tlen = 0 := rfl
@[simp] theorem resetRegisters_ioff : (s.resetRegisters).ioff = 0 := rfl
@[simp] theorem resetRegisters_ilen : (s.resetRegisters).ilen = 0 := rfl
@[simp] theorem resetRegisters_crcState : (s.resetRegisters).crcState = 0xFFFFFFFF := rfl
@[simp] theorem resetRegisters_tag : (s.resetRegisters).tag = 0 := rfl
@[simp] theorem resetRegisters_len : (s.resetRegisters).len = 0 := rfl
@[simp] theorem resetRegisters_chk : (s.resetRegisters).chk = 0 := rfl
@[simp] theorem resetRegisters_outLen : (s.resetRegisters).outLen = 0 := rfl
@[simp] theorem resetRegisters_index : (s.resetRegisters).index = 0xFFFFFFFF := rfl
@[simp] theorem resetRegisters_found : (s.resetRegisters).found = false := rfl
@[simp] theorem resetRegisters_errInfo0 : (s.resetRegisters).errInfo0 = 0 := rfl
@[simp] theorem resetRegisters_errInfo1 : (s.resetRegisters).errInfo1 = 0 := rfl
@[simp] theorem resetRegisters_errPos : (s.resetRegisters).errPos = 0 := rfl
@[simp] theorem resetRegisters_store : (s.resetRegisters).store = [] := rfl
@[simp] theorem resetRegisters_ibuf : (s.resetRegisters).ibuf = s.ibuf := rfl
@[simp] theorem resetRegisters_obuf : (s.resetRegisters).obuf = s.obuf := rfl
@[simp] theorem resetRegisters_resets : (s.resetRegisters).resets = s.resets := rfl
@[simp] theorem resetRegisters_draws : (s.resetRegisters).draws = s.draws := rfl
@[simp] theorem resetRegisters_host : (s.resetRegisters).host = s.host := rfl
@[simp] theorem resetRegisters_turns : (s.resetRegisters).turns = s.turns := rfl
@[simp] theorem resetRegisters_reads : (s.resetRegisters).reads = s.reads := rfl

/-! ### hwReset: The hardware reset (70_reset R270, R271). -/

@[simp] theorem hwReset_cfg : (s.hwReset).cfg = s.cfg := rfl
@[simp] theorem hwReset_irqEn : (s.hwReset).irqEn = false := rfl
@[simp] theorem hwReset_busy : (s.hwReset).busy = false := rfl
@[simp] theorem hwReset_done : (s.hwReset).done = false := rfl
@[simp] theorem hwReset_ovr : (s.hwReset).ovr = false := rfl
@[simp] theorem hwReset_errCode : (s.hwReset).errCode = 0 := rfl
@[simp] theorem hwReset_cmd : (s.hwReset).cmd = 0 := rfl
@[simp] theorem hwReset_arg0 : (s.hwReset).arg0 = 0 := rfl
@[simp] theorem hwReset_tlen : (s.hwReset).tlen = 0 := rfl
@[simp] theorem hwReset_ioff : (s.hwReset).ioff = 0 := rfl
@[simp] theorem hwReset_ilen : (s.hwReset).ilen = 0 := rfl
@[simp] theorem hwReset_crcState : (s.hwReset).crcState = 0xFFFFFFFF := rfl
@[simp] theorem hwReset_tag : (s.hwReset).tag = 0 := rfl
@[simp] theorem hwReset_len : (s.hwReset).len = 0 := rfl
@[simp] theorem hwReset_chk : (s.hwReset).chk = 0 := rfl
@[simp] theorem hwReset_outLen : (s.hwReset).outLen = 0 := rfl
@[simp] theorem hwReset_index : (s.hwReset).index = 0xFFFFFFFF := rfl
@[simp] theorem hwReset_found : (s.hwReset).found = false := rfl
@[simp] theorem hwReset_errInfo0 : (s.hwReset).errInfo0 = 0 := rfl
@[simp] theorem hwReset_errInfo1 : (s.hwReset).errInfo1 = 0 := rfl
@[simp] theorem hwReset_errPos : (s.hwReset).errPos = 0 := rfl
@[simp] theorem hwReset_store : (s.hwReset).store = [] := rfl
@[simp] theorem hwReset_ibuf : (s.hwReset).ibuf = [] := rfl
@[simp] theorem hwReset_obuf : (s.hwReset).obuf = [] := rfl
@[simp] theorem hwReset_resets : (s.hwReset).resets = s.resets + 1 := rfl
@[simp] theorem hwReset_draws : (s.hwReset).draws = s.draws := rfl
@[simp] theorem hwReset_host : (s.hwReset).host = s.host := rfl
@[simp] theorem hwReset_turns : (s.hwReset).turns = s.turns := rfl
@[simp] theorem hwReset_reads : (s.hwReset).reads = s.reads := rfl

/-! ### writeStatus: Write-1-to-clear of STATUS (10_state R24). -/

@[simp] theorem writeStatus_cfg (v : Word) : (s.writeStatus v).cfg = s.cfg := rfl
@[simp] theorem writeStatus_irqEn (v : Word) : (s.writeStatus v).irqEn = s.irqEn := rfl
@[simp] theorem writeStatus_busy (v : Word) : (s.writeStatus v).busy = s.busy := rfl
@[simp] theorem writeStatus_done (v : Word) : (s.writeStatus v).done = (s.done && !v.getLsbD 1) := rfl
@[simp] theorem writeStatus_ovr (v : Word) : (s.writeStatus v).ovr = (s.ovr && !v.getLsbD 3) := rfl
@[simp] theorem writeStatus_errCode (v : Word) : (s.writeStatus v).errCode = s.errCode := rfl
@[simp] theorem writeStatus_cmd (v : Word) : (s.writeStatus v).cmd = s.cmd := rfl
@[simp] theorem writeStatus_arg0 (v : Word) : (s.writeStatus v).arg0 = s.arg0 := rfl
@[simp] theorem writeStatus_tlen (v : Word) : (s.writeStatus v).tlen = s.tlen := rfl
@[simp] theorem writeStatus_ioff (v : Word) : (s.writeStatus v).ioff = s.ioff := rfl
@[simp] theorem writeStatus_ilen (v : Word) : (s.writeStatus v).ilen = s.ilen := rfl
@[simp] theorem writeStatus_crcState (v : Word) : (s.writeStatus v).crcState = s.crcState := rfl
@[simp] theorem writeStatus_tag (v : Word) : (s.writeStatus v).tag = s.tag := rfl
@[simp] theorem writeStatus_len (v : Word) : (s.writeStatus v).len = s.len := rfl
@[simp] theorem writeStatus_chk (v : Word) : (s.writeStatus v).chk = s.chk := rfl
@[simp] theorem writeStatus_outLen (v : Word) : (s.writeStatus v).outLen = s.outLen := rfl
@[simp] theorem writeStatus_index (v : Word) : (s.writeStatus v).index = s.index := rfl
@[simp] theorem writeStatus_found (v : Word) : (s.writeStatus v).found = s.found := rfl
@[simp] theorem writeStatus_errInfo0 (v : Word) : (s.writeStatus v).errInfo0 = s.errInfo0 := rfl
@[simp] theorem writeStatus_errInfo1 (v : Word) : (s.writeStatus v).errInfo1 = s.errInfo1 := rfl
@[simp] theorem writeStatus_errPos (v : Word) : (s.writeStatus v).errPos = s.errPos := rfl
@[simp] theorem writeStatus_store (v : Word) : (s.writeStatus v).store = s.store := rfl
@[simp] theorem writeStatus_ibuf (v : Word) : (s.writeStatus v).ibuf = s.ibuf := rfl
@[simp] theorem writeStatus_obuf (v : Word) : (s.writeStatus v).obuf = s.obuf := rfl
@[simp] theorem writeStatus_resets (v : Word) : (s.writeStatus v).resets = s.resets := rfl
@[simp] theorem writeStatus_draws (v : Word) : (s.writeStatus v).draws = s.draws := rfl
@[simp] theorem writeStatus_host (v : Word) : (s.writeStatus v).host = s.host := rfl
@[simp] theorem writeStatus_turns (v : Word) : (s.writeStatus v).turns = s.turns := rfl
@[simp] theorem writeStatus_reads (v : Word) : (s.writeStatus v).reads = s.reads := rfl

/-! ### recordRead: The record of a host read (20_memory R72). -/

@[simp] theorem recordRead_cfg (v : Word) : (s.recordRead v).cfg = s.cfg := rfl
@[simp] theorem recordRead_irqEn (v : Word) : (s.recordRead v).irqEn = s.irqEn := rfl
@[simp] theorem recordRead_busy (v : Word) : (s.recordRead v).busy = s.busy := rfl
@[simp] theorem recordRead_done (v : Word) : (s.recordRead v).done = s.done := rfl
@[simp] theorem recordRead_ovr (v : Word) : (s.recordRead v).ovr = s.ovr := rfl
@[simp] theorem recordRead_errCode (v : Word) : (s.recordRead v).errCode = s.errCode := rfl
@[simp] theorem recordRead_cmd (v : Word) : (s.recordRead v).cmd = s.cmd := rfl
@[simp] theorem recordRead_arg0 (v : Word) : (s.recordRead v).arg0 = s.arg0 := rfl
@[simp] theorem recordRead_tlen (v : Word) : (s.recordRead v).tlen = s.tlen := rfl
@[simp] theorem recordRead_ioff (v : Word) : (s.recordRead v).ioff = s.ioff := rfl
@[simp] theorem recordRead_ilen (v : Word) : (s.recordRead v).ilen = s.ilen := rfl
@[simp] theorem recordRead_crcState (v : Word) : (s.recordRead v).crcState = s.crcState := rfl
@[simp] theorem recordRead_tag (v : Word) : (s.recordRead v).tag = s.tag := rfl
@[simp] theorem recordRead_len (v : Word) : (s.recordRead v).len = s.len := rfl
@[simp] theorem recordRead_chk (v : Word) : (s.recordRead v).chk = s.chk := rfl
@[simp] theorem recordRead_outLen (v : Word) : (s.recordRead v).outLen = s.outLen := rfl
@[simp] theorem recordRead_index (v : Word) : (s.recordRead v).index = s.index := rfl
@[simp] theorem recordRead_found (v : Word) : (s.recordRead v).found = s.found := rfl
@[simp] theorem recordRead_errInfo0 (v : Word) : (s.recordRead v).errInfo0 = s.errInfo0 := rfl
@[simp] theorem recordRead_errInfo1 (v : Word) : (s.recordRead v).errInfo1 = s.errInfo1 := rfl
@[simp] theorem recordRead_errPos (v : Word) : (s.recordRead v).errPos = s.errPos := rfl
@[simp] theorem recordRead_store (v : Word) : (s.recordRead v).store = s.store := rfl
@[simp] theorem recordRead_ibuf (v : Word) : (s.recordRead v).ibuf = s.ibuf := rfl
@[simp] theorem recordRead_obuf (v : Word) : (s.recordRead v).obuf = s.obuf := rfl
@[simp] theorem recordRead_resets (v : Word) : (s.recordRead v).resets = s.resets := rfl
@[simp] theorem recordRead_draws (v : Word) : (s.recordRead v).draws = s.draws + 1 := rfl
@[simp] theorem recordRead_host (v : Word) : (s.recordRead v).host = s.host := rfl
@[simp] theorem recordRead_turns (v : Word) : (s.recordRead v).turns = s.turns := rfl
@[simp] theorem recordRead_reads (v : Word) : (s.recordRead v).reads = v :: s.reads := rfl

/-! ### popTurn: Taking a turn off the schedule. -/

@[simp] theorem popTurn_cfg : (s.popTurn).cfg = s.cfg := rfl
@[simp] theorem popTurn_irqEn : (s.popTurn).irqEn = s.irqEn := rfl
@[simp] theorem popTurn_busy : (s.popTurn).busy = s.busy := rfl
@[simp] theorem popTurn_done : (s.popTurn).done = s.done := rfl
@[simp] theorem popTurn_ovr : (s.popTurn).ovr = s.ovr := rfl
@[simp] theorem popTurn_errCode : (s.popTurn).errCode = s.errCode := rfl
@[simp] theorem popTurn_cmd : (s.popTurn).cmd = s.cmd := rfl
@[simp] theorem popTurn_arg0 : (s.popTurn).arg0 = s.arg0 := rfl
@[simp] theorem popTurn_tlen : (s.popTurn).tlen = s.tlen := rfl
@[simp] theorem popTurn_ioff : (s.popTurn).ioff = s.ioff := rfl
@[simp] theorem popTurn_ilen : (s.popTurn).ilen = s.ilen := rfl
@[simp] theorem popTurn_crcState : (s.popTurn).crcState = s.crcState := rfl
@[simp] theorem popTurn_tag : (s.popTurn).tag = s.tag := rfl
@[simp] theorem popTurn_len : (s.popTurn).len = s.len := rfl
@[simp] theorem popTurn_chk : (s.popTurn).chk = s.chk := rfl
@[simp] theorem popTurn_outLen : (s.popTurn).outLen = s.outLen := rfl
@[simp] theorem popTurn_index : (s.popTurn).index = s.index := rfl
@[simp] theorem popTurn_found : (s.popTurn).found = s.found := rfl
@[simp] theorem popTurn_errInfo0 : (s.popTurn).errInfo0 = s.errInfo0 := rfl
@[simp] theorem popTurn_errInfo1 : (s.popTurn).errInfo1 = s.errInfo1 := rfl
@[simp] theorem popTurn_errPos : (s.popTurn).errPos = s.errPos := rfl
@[simp] theorem popTurn_store : (s.popTurn).store = s.store := rfl
@[simp] theorem popTurn_ibuf : (s.popTurn).ibuf = s.ibuf := rfl
@[simp] theorem popTurn_obuf : (s.popTurn).obuf = s.obuf := rfl
@[simp] theorem popTurn_resets : (s.popTurn).resets = s.resets := rfl
@[simp] theorem popTurn_draws : (s.popTurn).draws = s.draws := rfl
@[simp] theorem popTurn_host : (s.popTurn).host = s.host := rfl
@[simp] theorem popTurn_turns : (s.popTurn).turns = s.turns.tail := rfl
@[simp] theorem popTurn_reads : (s.popTurn).reads = s.reads := rfl

/-! ### placeCommand: Placing a command for the next step. -/

@[simp] theorem placeCommand_cfg (w : Word) : (s.placeCommand w).cfg = s.cfg := rfl
@[simp] theorem placeCommand_irqEn (w : Word) : (s.placeCommand w).irqEn = s.irqEn := rfl
@[simp] theorem placeCommand_busy (w : Word) : (s.placeCommand w).busy = true := rfl
@[simp] theorem placeCommand_done (w : Word) : (s.placeCommand w).done = false := rfl
@[simp] theorem placeCommand_ovr (w : Word) : (s.placeCommand w).ovr = s.ovr := rfl
@[simp] theorem placeCommand_errCode (w : Word) : (s.placeCommand w).errCode = 0 := rfl
@[simp] theorem placeCommand_cmd (w : Word) : (s.placeCommand w).cmd = w := rfl
@[simp] theorem placeCommand_arg0 (w : Word) : (s.placeCommand w).arg0 = s.arg0 := rfl
@[simp] theorem placeCommand_tlen (w : Word) : (s.placeCommand w).tlen = s.tlen := rfl
@[simp] theorem placeCommand_ioff (w : Word) : (s.placeCommand w).ioff = s.ioff := rfl
@[simp] theorem placeCommand_ilen (w : Word) : (s.placeCommand w).ilen = s.ilen := rfl
@[simp] theorem placeCommand_crcState (w : Word) : (s.placeCommand w).crcState = s.crcState := rfl
@[simp] theorem placeCommand_tag (w : Word) : (s.placeCommand w).tag = s.tag := rfl
@[simp] theorem placeCommand_len (w : Word) : (s.placeCommand w).len = s.len := rfl
@[simp] theorem placeCommand_chk (w : Word) : (s.placeCommand w).chk = s.chk := rfl
@[simp] theorem placeCommand_outLen (w : Word) : (s.placeCommand w).outLen = s.outLen := rfl
@[simp] theorem placeCommand_index (w : Word) : (s.placeCommand w).index = s.index := rfl
@[simp] theorem placeCommand_found (w : Word) : (s.placeCommand w).found = s.found := rfl
@[simp] theorem placeCommand_errInfo0 (w : Word) : (s.placeCommand w).errInfo0 = s.errInfo0 := rfl
@[simp] theorem placeCommand_errInfo1 (w : Word) : (s.placeCommand w).errInfo1 = s.errInfo1 := rfl
@[simp] theorem placeCommand_errPos (w : Word) : (s.placeCommand w).errPos = s.errPos := rfl
@[simp] theorem placeCommand_store (w : Word) : (s.placeCommand w).store = s.store := rfl
@[simp] theorem placeCommand_ibuf (w : Word) : (s.placeCommand w).ibuf = s.ibuf := rfl
@[simp] theorem placeCommand_obuf (w : Word) : (s.placeCommand w).obuf = s.obuf := rfl
@[simp] theorem placeCommand_resets (w : Word) : (s.placeCommand w).resets = s.resets := rfl
@[simp] theorem placeCommand_draws (w : Word) : (s.placeCommand w).draws = s.draws := rfl
@[simp] theorem placeCommand_host (w : Word) : (s.placeCommand w).host = s.host := rfl
@[simp] theorem placeCommand_turns (w : Word) : (s.placeCommand w).turns = .engine :: s.turns := rfl
@[simp] theorem placeCommand_reads (w : Word) : (s.placeCommand w).reads = s.reads := rfl

/-! ### complete: all or nothing (10_state R27; 60_exceptions R246). -/

@[simp] theorem complete_error (e : CmdError) : s.complete (.error e) = s.raise e := rfl
@[simp] theorem complete_ok (t : State) : s.complete (.ok t) = t.succeed := rfl

/-- Everything a completion step can do. -/
theorem complete_cases (r : Except CmdError State) :
    (∃ e, r = .error e ∧ s.complete r = s.raise e) ∨ (∃ t, r = .ok t ∧ s.complete r = t.succeed) := by
  cases r with
  | error e => exact .inl ⟨e, rfl, rfl⟩
  | ok t => exact .inr ⟨t, rfl, rfl⟩

end Sys2Proof.Machine
end

