-- ==== Sys2Proof/Laws/Memory.lean ====
section
/-! SUPPORT. The laws of the buffers' memory: read after write, and that every memory operation keeps the canonical form
and the bounds. -/

namespace Sys2Proof.Machine

@[simp] theorem Memory.read_nil (a : Nat) : Memory.read [] a = none := rfl

/-- Reading the byte just written. -/
@[simp] theorem Memory.read_write_same (m : Memory) (a : Nat) (v : Byte) : Memory.read (Memory.write m a v) a = some v := by
  induction m with
  | nil => simp [Memory.write, Memory.read]
  | cons p m ih =>
    obtain ⟨k, x⟩ := p
    by_cases h1 : a < k
    · simp [Memory.write, Memory.read, h1]
    · by_cases h2 : a = k
      · simp [Memory.write, Memory.read, h2]
      · have h3 : ¬ k = a := fun h => h2 h.symm
        simp [Memory.write, Memory.read, h1, h2, h3, ih]

/-- A write leaves every other byte alone. -/
theorem Memory.read_write_ne (m : Memory) {a b : Nat} (v : Byte) (h : b ≠ a) :
    Memory.read (Memory.write m a v) b = Memory.read m b := by
  have h' : ¬ a = b := fun e => h e.symm
  induction m with
  | nil => simp [Memory.write, Memory.read, h']
  | cons p m ih =>
    obtain ⟨k, x⟩ := p
    by_cases h1 : a < k
    · simp [Memory.write, Memory.read, h1, h']
    · by_cases h2 : a = k
      · subst h2; simp [Memory.write, Memory.read, h']
      · simp [Memory.write, Memory.read, h1, h2, ih]

/-- What one write does to every read. -/
theorem Memory.read_write (m : Memory) (a b : Nat) (v : Byte) :
    Memory.read (Memory.write m a v) b = if b = a then some v else Memory.read m b := by
  by_cases h : b = a
  · subst h; simp
  · simp [h, Memory.read_write_ne]

/-- An entry after a write is the one written or was there before. -/
theorem Memory.mem_write {m : Memory} {a : Nat} {v : Byte} {p : Host.Cell} (h : p ∈ Memory.write m a v) :
    p = (a, v) ∨ p ∈ m := by
  induction m with
  | nil => exact .inl (by simpa [Memory.write] using h)
  | cons q m ih =>
    obtain ⟨k, x⟩ := q
    simp only [Memory.write] at h
    split at h
    · simpa using h
    · split at h
      · rcases List.mem_cons.1 h with h | h
        · exact .inl h
        · exact .inr (List.mem_cons_of_mem _ h)
      · rcases List.mem_cons.1 h with h | h
        · exact .inr (by simp [h])
        · rcases ih h with h | h
          · exact .inl h
          · exact .inr (List.mem_cons_of_mem _ h)

/-- A write keeps the canonical form. -/
theorem Memory.write_wf {m : Memory} (a : Nat) (v : Byte) (h : Memory.wf m) : Memory.wf (Memory.write m a v) := by
  induction m with
  | nil => simp [Memory.write]
  | cons q m ih =>
    obtain ⟨k, x⟩ := q
    obtain ⟨hk, hm⟩ := List.pairwise_cons.1 h
    simp only [Memory.write]
    split
    · rename_i hak
      refine List.pairwise_cons.2 ⟨fun p hp => ?_, h⟩
      rcases List.mem_cons.1 hp with rfl | hp
      · exact hak
      · exact Nat.lt_trans hak (hk p hp)
    · split
      · rename_i hak; subst hak
        exact List.pairwise_cons.2 ⟨hk, hm⟩
      · rename_i h1 h2
        refine List.pairwise_cons.2 ⟨fun p hp => ?_, ih hm⟩
        rcases Memory.mem_write hp with rfl | hp
        · show k < a; omega
        · exact hk p hp

/-- Writing a sequence keeps the canonical form. -/
theorem Memory.writeSeq_wf {m : Memory} (a : Nat) (bs : List Byte) (h : Memory.wf m) :
    Memory.wf (Memory.writeSeq m a bs) := by
  induction bs generalizing m a with
  | nil => exact h
  | cons b bs ih => exact ih (a + 1) (Memory.write_wf a b h)

/-- What writing a sequence does to every read. -/
theorem Memory.read_writeSeq (m : Memory) (a b : Nat) (bs : List Byte) :
    Memory.read (Memory.writeSeq m a bs) b =
      if a ≤ b ∧ b < a + bs.length then some (bs.getD (b - a) 0) else Memory.read m b := by
  induction bs generalizing m a with
  | nil => simp [Memory.writeSeq]
  | cons x bs ih =>
    rw [Memory.writeSeq, ih, Memory.read_write]
    rcases Nat.lt_trichotomy b a with h | h | h
    · have h1 : ¬ (a + 1 ≤ b ∧ b < a + 1 + bs.length) := by omega
      have h2 : ¬ (a ≤ b ∧ b < a + (x :: bs).length) := by omega
      rw [if_neg h1, if_neg h2, if_neg (by omega)]
    · subst h
      simp
    · by_cases h3 : b < a + 1 + bs.length
      · have h1 : a + 1 ≤ b ∧ b < a + 1 + bs.length := ⟨h, h3⟩
        have h2 : a ≤ b ∧ b < a + (x :: bs).length := by simp; omega
        rw [if_pos h1, if_pos h2]
        obtain ⟨j, rfl⟩ : ∃ j, b = a + 1 + j := ⟨b - (a + 1), by omega⟩
        have e1 : a + 1 + j - (a + 1) = j := by omega
        have e2 : a + 1 + j - a = j + 1 := by omega
        simp [e1, e2]
      · have h1 : ¬ (a + 1 ≤ b ∧ b < a + 1 + bs.length) := by omega
        have h2 : ¬ (a ≤ b ∧ b < a + (x :: bs).length) := by simp; omega
        rw [if_neg h1, if_neg h2, if_neg (by omega)]

/-- A write inside the buffer keeps its bounds. -/
theorem Memory.Within.write {size : Nat} {m : Memory} (h : Memory.Within size m) {a : Nat} (v : Byte) (ha : a < size) :
    Memory.Within size (Memory.write m a v) where
  canonical := Memory.write_wf a v h.canonical
  inside p hp := by
    rcases Memory.mem_write hp with rfl | hp
    · exact ha
    · exact h.inside p hp

/-- Writing a sequence that fits keeps the bounds. -/
theorem Memory.Within.writeSeq {size : Nat} {m : Memory} (h : Memory.Within size m) {a : Nat} (bs : List Byte)
    (ha : a + bs.length ≤ size) : Memory.Within size (Memory.writeSeq m a bs) := by
  induction bs generalizing m a with
  | nil => exact h
  | cons b bs ih =>
    rw [List.length_cons] at ha
    exact ih (h.write b (by omega)) (by omega)

/-- An empty memory is canonical, in every bound: the buffers after a reset. -/
theorem Memory.Within.nil (size : Nat) : Memory.Within size [] where
  canonical := List.Pairwise.nil
  inside p hp := by simp at hp

/-- The memories of the state after reset have the canonical form. -/
theorem reset_memory_wf : Memory.wf State.reset.ibuf ∧ Memory.wf State.reset.obuf :=
  ⟨List.Pairwise.nil, List.Pairwise.nil⟩

/-- `OBUF[a]` after a command's output is written (30_encoding R100). -/
theorem writeOutput_obufByte (s : State) (out : List Byte) (a : Nat) :
    (s.writeOutput out).obufByte a = if a < out.length then out.getD a 0 else s.obufByte a := by
  simp only [State.obufByte, writeOutput_obuf, writeOutput_resets, Memory.read_writeSeq]
  by_cases h : a < out.length <;> simp [h]

/-- `IBUF[a]` after one written byte. -/
theorem ibufByte_write (s : State) (a b : Nat) (v : Byte) :
    { s with ibuf := Memory.write s.ibuf a v }.ibufByte b = if b = a then v else s.ibufByte b := by
  simp only [State.ibufByte, Memory.read_write]
  by_cases h : b = a <;> simp [h]

/-- `OBUF[a]` after one written byte. -/
theorem obufByte_write (s : State) (a b : Nat) (v : Byte) :
    { s with obuf := Memory.write s.obuf a v }.obufByte b = if b = a then v else s.obufByte b := by
  simp only [State.obufByte, Memory.read_write]
  by_cases h : b = a <;> simp [h]

@[simp] theorem ibufRange_length (s : State) (a n : Nat) : (s.ibufRange a n).length = n := by
  simp [State.ibufRange]

/-- Two adjacent ranges are one (30_encoding R97). -/
theorem ibufRange_append (s : State) (a n m : Nat) :
    s.ibufRange a (n + m) = s.ibufRange a n ++ s.ibufRange (a + n) m := by
  simp [State.ibufRange, ← List.map_append, List.range'_append_1]

/-- The range depends on the buffer's bytes only. -/
theorem ibufRange_congr {s t : State} (hi : t.ibuf = s.ibuf) (hr : t.resets = s.resets) (a n : Nat) :
    t.ibufRange a n = s.ibufRange a n := by
  simp only [State.ibufRange, List.map_inj_left]
  intro b _
  simp [State.ibufByte, hi, hr]

end Sys2Proof.Machine
end

