-- ==== Sys2Proof/Laws/Bytes.lean ====
section
/-! SUPPORT. Byte order: be32 and be32bytes, pack and unpack, slices, the little-endian bus. -/

namespace Sys2Proof.Machine

/-- Appending four bytes and cutting them apart again. -/
theorem extract_append4 (a b c d : Byte) :
    ((a ++ b ++ c ++ d : BitVec (8 + 8 + 8 + 8)) : Word).extractLsb' 24 8 = a ∧
    ((a ++ b ++ c ++ d : BitVec (8 + 8 + 8 + 8)) : Word).extractLsb' 16 8 = b ∧
    ((a ++ b ++ c ++ d : BitVec (8 + 8 + 8 + 8)) : Word).extractLsb' 8 8 = c ∧
    ((a ++ b ++ c ++ d : BitVec (8 + 8 + 8 + 8)) : Word).extractLsb' 0 8 = d := by
  refine ⟨?_, ?_, ?_, ?_⟩ <;>
  · ext i hi
    simp only [BitVec.getElem_extractLsb', BitVec.getLsbD_append]
    have : i < 8 := hi
    first
      | rw [if_neg (by omega), if_neg (by omega), if_neg (by omega)]
      | rw [if_neg (by omega), if_neg (by omega), if_pos (by omega)]
      | rw [if_neg (by omega), if_pos (by omega)]
      | rw [if_pos (by omega)]
    rw [BitVec.getLsbD_eq_getElem (by omega)]
    congr 1; omega

/-- The four bytes of a word, appended, are the word. -/
theorem append4_extract (w : Word) :
    (w.extractLsb' 24 8 ++ w.extractLsb' 16 8 ++ w.extractLsb' 8 8 ++ w.extractLsb' 0 8 : BitVec (8 + 8 + 8 + 8)) = w := by
  apply BitVec.eq_of_getLsbD_eq
  intro i hi
  simp only [BitVec.getLsbD_append, BitVec.getLsbD_extractLsb']
  by_cases h0 : i < 8
  · simp [h0]
  · by_cases h1 : i - 8 < 8
    · simp [h0, h1]; congr 1; omega
    · by_cases h2 : i - 8 - 8 < 8
      · simp [h0, h1, h2]; congr 1; omega
      · simp [h0, h1, h2]
        have : i - 8 - 8 - 8 < 8 := by omega
        simp [this]; congr 1; omega

@[simp] theorem unpack_pack (t : Tag) : Tag.unpack t.pack = t := by
  obtain ⟨a, b, c, d⟩ := t
  obtain ⟨h1, h2, h3, h4⟩ := extract_append4 a b c d
  simp only [Tag.unpack, Tag.pack, h1, h2, h3, h4]

@[simp] theorem pack_unpack (w : Word) : (Tag.unpack w).pack = w := append4_extract w

@[simp] theorem be32_be32bytes (v : Word) : be32 (be32bytes v) = v := append4_extract v

/-- `be32` reads the first four bytes only. -/
theorem be32_append (v : Word) (s : List Byte) : be32 (be32bytes v ++ s) = v := append4_extract v

@[simp] theorem be32bytes_length (v : Word) : (be32bytes v).length = 4 := rfl

@[simp] theorem bytes_length (t : Tag) : t.bytes.length = 4 := rfl

@[simp] theorem ofBytes_bytes (t : Tag) (s : List Byte) : Tag.ofBytes (t.bytes ++ s) = t := rfl

/-- A four-byte sequence is the bytes of its word. -/
theorem be32bytes_be32 (a b c d : Byte) : be32bytes (be32 [a, b, c, d]) = [a, b, c, d] := by
  obtain ⟨h1, h2, h3, h4⟩ := extract_append4 a b c d
  simp only [be32bytes, be32, List.getD_cons_zero, List.getD_cons_succ, h1, h2, h3, h4]

/-- `be32` of a slice that starts at 0 and holds the four bytes. -/
theorem be32_take (s : List Byte) : be32 (s.take 4) = be32 s := by
  rcases s with _ | ⟨a, _ | ⟨b, _ | ⟨c, _ | ⟨d, s⟩⟩⟩⟩ <;> rfl

/-- A packed tag is the big-endian word of its bytes (30_encoding R94). -/
theorem pack_eq_be32 (t : Tag) : t.pack = be32 t.bytes := rfl

theorem slice_zero (s : List Byte) (j : Nat) : slice s 0 j = s.take j := by simp [slice]

theorem slice_length (s : List Byte) (i j : Nat) : (slice s i j).length = min (j - i) (s.length - i) := by
  simp [slice]

/-- The part of `b` in the middle of `a ++ b ++ c`. -/
theorem slice_middle (a b c : List Byte) {i j : Nat} (hi : i = a.length) (hj : j = a.length + b.length) :
    slice (a ++ b ++ c) i j = b := by
  subst hi hj
  simp [slice]

theorem count_toNat {n : Nat} (h : n < 2 ^ 32) : (count n).toNat = n := by
  rw [count, BitVec.toNat_ofNat, Nat.mod_eq_of_lt h]

@[simp] theorem count_toNat_self (w : Word) : count w.toNat = w := by simp [count]

@[simp] theorem leBytes_length (n : Nat) (v : Word) : (leBytes n v).length = n := by simp [leBytes]

/-- Byte `i` of a little-endian bus value (20_memory R67). -/
theorem leWord_extract (bs : List Byte) (i : Nat) (h : bs.length ≤ 4) :
    (leWord bs).extractLsb' (8 * i) 8 = bs.getD i 0 := by
  induction bs generalizing i with
  | nil => simp [leWord]
  | cons b bs ih =>
    rw [List.length_cons] at h
    apply BitVec.eq_of_getLsbD_eq
    intro j hj
    simp only [leWord, BitVec.getLsbD_extractLsb', BitVec.getLsbD_or, BitVec.getLsbD_shiftLeft,
      BitVec.getLsbD_setWidth]
    cases i with
    | zero =>
      have h32 : j < 32 := by omega
      simp [hj, h32]
    | succ i =>
      have h1 : ¬ 8 * (i + 1) + j < 8 := by omega
      have h2 : b.getLsbD (8 * (i + 1) + j) = false := BitVec.getLsbD_of_ge _ _ (by omega)
      have h3 : 8 * (i + 1) + j - 8 = 8 * i + j := by omega
      have ih' := congrArg (fun x : Byte => x.getLsbD j) (ih i (by omega))
      simp only [BitVec.getLsbD_extractLsb', hj, decide_true, Bool.true_and] at ih'
      simp only [h1, h2, h3, hj, Bool.and_false, Bool.or_false, decide_false, decide_true, Bool.not_false,
        Bool.and_true, Bool.true_and, ih', List.getD_cons_succ]
      by_cases h32 : 8 * (i + 1) + j < 32
      · simp [h32]
      · have hz : bs.getD i 0 = 0 := by
          rw [List.getD_eq_getElem?_getD, List.getElem?_eq_none (by omega)]; rfl
        rw [hz]; simp

end Sys2Proof.Machine
end

