-- ==== Sys2Proof/Laws/Operands.lean ====
section
/-! SUPPORT. Everything the operand forms and the capacity checks can answer. -/

namespace Sys2Proof.Machine

/-- `try` of an error raises it, of a value yields it (00_scope R13). -/
@[simp] theorem try_error {α β : Type} (e : CmdError) (f : α → Except CmdError β) :
    (Except.error e >>= f) = Except.error e := rfl

@[simp] theorem try_ok {α β : Type} (a : α) (f : α → Except CmdError β) : (Except.ok a >>= f) = f a := rfl

@[simp] theorem pure_eq_ok {α : Type} (a : α) : (pure a : Except CmdError α) = .ok a := rfl

/-- A sequence that answers a value went through a value. -/
theorem try_eq_ok {α β : Type} {x : Except CmdError α} {f : α → Except CmdError β} {b : β} (h : (x >>= f) = .ok b) :
    ∃ a, x = .ok a ∧ f a = .ok b := by
  cases x with
  | error e => simp at h
  | ok a => exact ⟨a, rfl, h⟩

/-! ## Tag construction (40_tag R121) -/

theorem letters_eq_true_iff (t : Tag) :
    t.letters = true ↔
      isLetter t.b0 = true ∧ isLetter t.b1 = true ∧ isLetter t.b2 = true ∧ isLetter t.b3 = true := by
  simp [Tag.letters, and_assoc]

/-- Every tag is four letters or has a lowest byte that is none. -/
theorem letters_or_failsAt (t : Tag) : t.letters = true ∨ ∃ i, t.FailsAt i := by
  by_cases h0 : isLetter t.b0 = true
  · by_cases h1 : isLetter t.b1 = true
    · by_cases h2 : isLetter t.b2 = true
      · by_cases h3 : isLetter t.b3 = true
        · exact .inl ((letters_eq_true_iff t).2 ⟨h0, h1, h2, h3⟩)
        · refine .inr ⟨3, by omega, Bool.eq_false_iff.2 h3, fun j hj => ?_⟩
          interval_cases j <;> assumption
      · refine .inr ⟨2, by omega, Bool.eq_false_iff.2 h2, fun j hj => ?_⟩
        interval_cases j <;> assumption
    · refine .inr ⟨1, by omega, Bool.eq_false_iff.2 h1, fun j hj => ?_⟩
      interval_cases j
      exact h0
  · exact .inr ⟨0, by omega, Bool.eq_false_iff.2 h0, fun j hj => by omega⟩

theorem firstNonLetter_of_letters {t : Tag} (h : t.letters = true) : t.firstNonLetter = none := by
  obtain ⟨h0, h1, h2, h3⟩ := (letters_eq_true_iff t).1 h
  simp [Tag.firstNonLetter, h0, h1, h2, h3]

theorem firstNonLetter_of_failsAt {t : Tag} {i : Nat} (h : t.FailsAt i) : t.firstNonLetter = some (BitVec.ofNat 32 i) := by
  obtain ⟨hi, hf, hl⟩ := h
  have h0 : 0 < i → isLetter t.b0 = true := hl 0
  have h1 : 1 < i → isLetter t.b1 = true := hl 1
  have h2 : 2 < i → isLetter t.b2 = true := hl 2
  interval_cases i
  · have hf : isLetter t.b0 = false := hf
    simp [Tag.firstNonLetter, hf]
  · have hf : isLetter t.b1 = false := hf
    simp [Tag.firstNonLetter, hf, h0]
  · have hf : isLetter t.b2 = false := hf
    simp [Tag.firstNonLetter, hf, h0, h1]
  · have hf : isLetter t.b3 = false := hf
    simp [Tag.firstNonLetter, hf, h0, h1, h2]

theorem tagConstruct_of_letters {t : Tag} (h : t.letters = true) : tagConstruct t = .ok t := by
  simp [tagConstruct, firstNonLetter_of_letters h]

theorem tagConstruct_of_failsAt {t : Tag} {i : Nat} (h : t.FailsAt i) :
    tagConstruct t = .error ⟨.invalidTagBytes, t.pack, BitVec.ofNat 32 i, 0⟩ := by
  simp [tagConstruct, firstNonLetter_of_failsAt h]

theorem not_failsAt_of_letters {t : Tag} (h : t.letters = true) (i : Nat) : ¬ t.FailsAt i := fun hf => by
  have h1 := firstNonLetter_of_letters h
  rw [firstNonLetter_of_failsAt hf] at h1
  simp at h1

/-- Everything tag construction can answer. -/
theorem tagConstruct_cases (t : Tag) :
    (t.letters = true ∧ tagConstruct t = .ok t) ∨
    (t.letters = false ∧
      ∃ i, t.FailsAt i ∧ tagConstruct t = .error ⟨.invalidTagBytes, t.pack, BitVec.ofNat 32 i, 0⟩) := by
  rcases letters_or_failsAt t with h | ⟨i, h⟩
  · exact .inl ⟨h, tagConstruct_of_letters h⟩
  · refine .inr ⟨?_, i, h, tagConstruct_of_failsAt h⟩
    by_contra hl
    exact not_failsAt_of_letters (by simpa using hl) i h

theorem letters_of_tagConstruct_ok {t u : Tag} (h : tagConstruct t = .ok u) : u = t ∧ t.letters = true := by
  rcases tagConstruct_cases t with ⟨hl, he⟩ | ⟨_, i, _, he⟩
  · rw [he] at h; cases h; exact ⟨rfl, hl⟩
  · rw [he] at h; cases h

/-! ## Operands (30_encoding R95, R97, R100) -/

theorem tagTextOperand_of_length {s : State} (h : s.tlen = 4) : tagTextOperand s = .ok (Tag.unpack s.arg0) := by
  simp [tagTextOperand, h]

theorem tagTextOperand_of_not {s : State} (h : s.tlen ≠ 4) :
    tagTextOperand s = .error ⟨.invalidTagBytes, s.arg0, 0xFFFFFFFF, 0⟩ := by
  rw [tagTextOperand, if_pos h]

theorem inputRange_of_ok {s : State} (h : s.RangeOk) : inputRange s = .ok s.input := by
  rw [inputRange, if_neg (Nat.not_lt.2 h)]; rfl

theorem inputRange_of_not {s : State} (h : ¬ s.RangeOk) : inputRange s = .error ⟨.rangeError, s.ioff, s.ilen, 0⟩ := by
  rw [inputRange, if_pos (Nat.lt_of_not_le h)]

@[simp] theorem input_length (s : State) : s.input.length = s.ilen.toNat := by simp [State.input]

theorem outputFits_of_le {s : State} {n : Nat} (h : n ≤ s.cfg.obufSize) : outputFits s n = .ok () := by
  rw [outputFits, if_neg (Nat.not_lt.2 h)]

theorem outputFits_of_lt {s : State} {n : Nat} (h : s.cfg.obufSize < n) :
    outputFits s n = .error ⟨.outputOverflow, count n, count s.cfg.obufSize, 0⟩ := by
  rw [outputFits, if_pos h]

/-- Everything the output check can answer. -/
theorem outputFits_cases (s : State) (n : Nat) :
    (n ≤ s.cfg.obufSize ∧ outputFits s n = .ok ()) ∨
    (s.cfg.obufSize < n ∧ outputFits s n = .error ⟨.outputOverflow, count n, count s.cfg.obufSize, 0⟩) := by
  rcases Nat.lt_or_ge s.cfg.obufSize n with h | h
  · exact .inr ⟨h, outputFits_of_lt h⟩
  · exact .inl ⟨h, outputFits_of_le h⟩

/-- Everything the range check can answer. -/
theorem inputRange_cases (s : State) :
    (s.RangeOk ∧ inputRange s = .ok s.input) ∨
    (¬ s.RangeOk ∧ inputRange s = .error ⟨.rangeError, s.ioff, s.ilen, 0⟩) := by
  by_cases h : s.RangeOk
  · exact .inl ⟨h, inputRange_of_ok h⟩
  · exact .inr ⟨h, inputRange_of_not h⟩

/-- Everything the tag text can answer. -/
theorem tagTextOperand_cases (s : State) :
    (s.tlen = 4 ∧ tagTextOperand s = .ok (Tag.unpack s.arg0)) ∨
    (s.tlen ≠ 4 ∧ tagTextOperand s = .error ⟨.invalidTagBytes, s.arg0, 0xFFFFFFFF, 0⟩) := by
  by_cases h : s.tlen = 4
  · exact .inl ⟨h, tagTextOperand_of_length h⟩
  · exact .inr ⟨h, tagTextOperand_of_not h⟩

/-! ## The parameters' constraints (00_scope R7), one by one -/

/-- What a legal configuration gives. -/
theorem legal_facts {c : Config} (h : c.legal = true) :
    c.base % 4 = 0 ∧ 0x100 ≤ c.ibufOffset ∧ 0x100 ≤ c.obufOffset ∧
    (c.ibufOffset + c.ibufSize ≤ c.obufOffset ∨ c.obufOffset + c.obufSize ≤ c.ibufOffset) ∧
    16 ≤ c.ibufSize ∧ c.ibufSize ≤ 2 ^ 31 ∧ 16 ≤ c.obufSize ∧ c.obufSize ≤ 2 ^ 31 ∧
    1 ≤ c.maxChunks ∧ c.maxChunks ≤ 2 ^ 24 ∧ c.storeBytes ≤ 2 ^ 31 ∧ c.signature.length = 8 := by
  simp only [Config.legal, Config.baseAligned, Config.offsetsClear, Config.windowsDisjoint, Config.sizesInRange,
    Config.capacityInRange, Config.signatureLength, Bool.and_eq_true, Bool.or_eq_true, decide_eq_true_eq,
    beq_iff_eq] at h
  tauto

end Sys2Proof.Machine
end

