-- ==== Sys2Proof/Laws/Chunk.lean ====
section
/-! SUPPORT. The chunk and container functions: lengths, what a decode can answer, the parse loop, matching. -/

namespace Sys2Proof.Machine

@[simp] theorem chunkSerialize_length (c : Chunk) : (chunkSerialize c).length = c.payload.length + 12 := by
  simp [chunkSerialize]; omega

theorem payloadBytes_eq_sum (l : List Chunk) : payloadBytes l = (l.map fun c => c.payload.length).sum := by
  induction l with
  | nil => rfl
  | cons c l ih => simp [payloadBytes, ih]

theorem payloadBytes_append (l m : List Chunk) : payloadBytes (l ++ m) = payloadBytes l + payloadBytes m := by
  simp [payloadBytes_eq_sum]

theorem chunksSerialize_eq_flatten (l : List Chunk) : chunksSerialize l = (l.map chunkSerialize).flatten := by
  induction l with
  | nil => rfl
  | cons c l ih => simp [chunksSerialize, ih]

theorem chunksSerialize_length (l : List Chunk) : (chunksSerialize l).length = payloadBytes l + 12 * l.length := by
  induction l with
  | nil => rfl
  | cons c l ih => simp [chunksSerialize, payloadBytes, ih]; omega

theorem storeFits_iff (cfg : Config) (k b : Nat) :
    storeFits cfg k b = true ↔ k ≤ cfg.maxChunks ∧ b ≤ cfg.storeBytes := by
  simp [storeFits]

/-- A payload total below 2^32 is reported as it is (60_exceptions R243). -/
theorem totalWord_of_lt {n : Nat} (h : n < 2 ^ 32) : totalWord n = BitVec.ofNat 32 n := by rw [totalWord, if_pos h, count]

/-! ## Decode (42_chunk R164), step by step -/

section Decode
variable {impl : CrcImpl} {s : List Byte}

theorem chunkDecode_short (h : s.length < 4) : chunkDecode impl s = .error ⟨.truncatedInput, count s.length, 4, 0⟩ := by
  simp only [chunkDecode, if_pos h]

theorem chunkDecode_truncated (h4 : 4 ≤ s.length) (h : s.length < 12) :
    chunkDecode impl s = .error ⟨.truncatedInput, count s.length, 12, 0⟩ := by
  simp only [chunkDecode, if_neg (Nat.not_lt.2 h4), if_pos h]

theorem chunkDecode_length (h12 : 12 ≤ s.length) (h : s.length ≠ (be32 s).toNat + 12) :
    chunkDecode impl s = .error ⟨.invalidChunkLength, be32 s, count (s.length - 12), 0⟩ := by
  have h4 : ¬ s.length < 4 := by omega
  have hne : s.length - 4 ≠ (be32 s).toNat + 8 := by omega
  simp only [chunkDecode, slice_zero, be32_take, if_neg h4, if_neg (Nat.not_lt.2 h12), if_pos hne]

theorem chunkDecode_crc (h12 : 12 ≤ s.length) (hl : s.length = (be32 s).toNat + 12)
    (h : crc32 impl (slice s 4 (s.length - 4)) ≠ be32 (slice s (s.length - 4) s.length)) :
    chunkDecode impl s = .error ⟨.invalidChunkCrc, be32 (slice s (s.length - 4) s.length),
      crc32 impl (slice s 4 (s.length - 4)), 0⟩ := by
  have h4 : ¬ s.length < 4 := by omega
  have hne : ¬ s.length - 4 ≠ (be32 s).toNat + 8 := by omega
  simp only [chunkDecode, slice_zero, be32_take, if_neg h4, if_neg (Nat.not_lt.2 h12), if_neg hne, if_pos h]

theorem chunkDecode_tag (h12 : 12 ≤ s.length) (hl : s.length = (be32 s).toNat + 12)
    (h : crc32 impl (slice s 4 (s.length - 4)) = be32 (slice s (s.length - 4) s.length)) {i : Nat}
    (ht : (Tag.ofBytes (slice s 4 8)).FailsAt i) :
    chunkDecode impl s =
      .error ⟨.invalidTagBytes, (Tag.ofBytes (slice s 4 8)).pack, BitVec.ofNat 32 i, 0⟩ := by
  have h4 : ¬ s.length < 4 := by omega
  have hne : ¬ s.length - 4 ≠ (be32 s).toNat + 8 := by omega
  simp only [chunkDecode, slice_zero, be32_take, if_neg h4, if_neg (Nat.not_lt.2 h12), if_neg hne,
    if_neg (not_not.2 h), tagConstruct_of_failsAt ht]

theorem chunkDecode_ok (h12 : 12 ≤ s.length) (hl : s.length = (be32 s).toNat + 12)
    (h : crc32 impl (slice s 4 (s.length - 4)) = be32 (slice s (s.length - 4) s.length))
    (ht : (Tag.ofBytes (slice s 4 8)).letters = true) :
    chunkDecode impl s =
      .ok ⟨Tag.ofBytes (slice s 4 8), slice s 8 (s.length - 4), be32 (slice s (s.length - 4) s.length)⟩ := by
  have h4 : ¬ s.length < 4 := by omega
  have hne : ¬ s.length - 4 ≠ (be32 s).toNat + 8 := by omega
  simp only [chunkDecode, slice_zero, be32_take, if_neg h4, if_neg (Nat.not_lt.2 h12), if_neg hne,
    if_neg (not_not.2 h), tagConstruct_of_letters ht]

/-- Everything a decode can answer, in the order of its steps. -/
theorem chunkDecode_cases (impl : CrcImpl) (s : List Byte) :
    (s.length < 4 ∧ chunkDecode impl s = .error ⟨.truncatedInput, count s.length, 4, 0⟩) ∨
    (4 ≤ s.length ∧ s.length < 12 ∧ chunkDecode impl s = .error ⟨.truncatedInput, count s.length, 12, 0⟩) ∨
    (12 ≤ s.length ∧ s.length ≠ (be32 s).toNat + 12 ∧
      chunkDecode impl s = .error ⟨.invalidChunkLength, be32 s, count (s.length - 12), 0⟩) ∨
    (12 ≤ s.length ∧ s.length = (be32 s).toNat + 12 ∧
      crc32 impl (slice s 4 (s.length - 4)) ≠ be32 (slice s (s.length - 4) s.length) ∧
      chunkDecode impl s = .error ⟨.invalidChunkCrc, be32 (slice s (s.length - 4) s.length),
        crc32 impl (slice s 4 (s.length - 4)), 0⟩) ∨
    (12 ≤ s.length ∧ s.length = (be32 s).toNat + 12 ∧
      crc32 impl (slice s 4 (s.length - 4)) = be32 (slice s (s.length - 4) s.length) ∧
      ((∃ i, (Tag.ofBytes (slice s 4 8)).FailsAt i ∧ chunkDecode impl s =
          .error ⟨.invalidTagBytes, (Tag.ofBytes (slice s 4 8)).pack, BitVec.ofNat 32 i, 0⟩) ∨
        ((Tag.ofBytes (slice s 4 8)).letters = true ∧ chunkDecode impl s =
          .ok ⟨Tag.ofBytes (slice s 4 8), slice s 8 (s.length - 4), be32 (slice s (s.length - 4) s.length)⟩))) := by
  by_cases h4 : s.length < 4
  · exact .inl ⟨h4, chunkDecode_short h4⟩
  by_cases h12 : s.length < 12
  · exact .inr (.inl ⟨by omega, h12, chunkDecode_truncated (by omega) h12⟩)
  have h12' : 12 ≤ s.length := by omega
  by_cases hl : s.length = (be32 s).toNat + 12
  · by_cases hc : crc32 impl (slice s 4 (s.length - 4)) = be32 (slice s (s.length - 4) s.length)
    · refine .inr (.inr (.inr (.inr ⟨h12', hl, hc, ?_⟩)))
      rcases letters_or_failsAt (Tag.ofBytes (slice s 4 8)) with ht | ⟨i, ht⟩
      · exact .inr ⟨ht, chunkDecode_ok h12' hl hc ht⟩
      · exact .inl ⟨i, ht, chunkDecode_tag h12' hl hc ht⟩
    · exact .inr (.inr (.inr (.inl ⟨h12', hl, hc, chunkDecode_crc h12' hl hc⟩)))
  · exact .inr (.inr (.inl ⟨h12', hl, chunkDecode_length h12' hl⟩))

end Decode

/-! ## The parse loop (43_container R192) -/

theorem cutLength_le (rest : List Byte) : cutLength rest ≤ rest.length := by
  unfold cutLength
  split
  · exact Nat.le_refl _
  · exact Nat.min_le_right _ _

theorem cutLength_pos {rest : List Byte} (h : rest ≠ []) : 0 < cutLength rest := by
  have : 0 < rest.length := List.length_pos_iff.2 h
  unfold cutLength
  split <;> omega

/-- With at least as much fuel as there are bytes, the amount does not matter. -/
theorem parseChunks_fuel (cfg : Config) {f g : Nat} {rest : List Byte} (p : Nat) (out : List Chunk) (bytes : Nat)
    (hf : rest.length ≤ f) (hg : rest.length ≤ g) :
    parseChunks cfg f rest p out bytes = parseChunks cfg g rest p out bytes := by
  induction f generalizing g rest p out bytes with
  | zero =>
    have : rest = [] := List.length_eq_zero_iff.1 (by omega)
    subst this
    cases g <;> rfl
  | succ f ih =>
    cases rest with
    | nil => cases g <;> rfl
    | cons b bs =>
      cases g with
      | zero => simp at hg
      | succ g =>
        have hk : 0 < cutLength (b :: bs) := cutLength_pos (by simp)
        simp only [parseChunks]
        split
        · rfl
        · split
          · apply ih <;> · rw [List.length_drop, List.length_cons]; simp only [List.length_cons] at hf hg; omega
          · rfl

/-- One round of the loop, on the bytes left. -/
theorem parseChunks_round (cfg : Config) {rest : List Byte} (p : Nat) (out : List Chunk) (bytes : Nat) (h : rest ≠ []) :
    parseChunks cfg rest.length rest p out bytes =
      match chunkDecode cfg.crcImpl (slice rest 0 (cutLength rest)) with
      | .error e => .error { e with pos := count p }
      | .ok c =>
        if storeFits cfg (out.length + 1) (bytes + c.payload.length) then
          parseChunks cfg (rest.drop (cutLength rest)).length (rest.drop (cutLength rest)) (p + cutLength rest)
            (out ++ [c]) (bytes + c.payload.length)
        else .error (storeFull (out.length + 1) (bytes + c.payload.length) p) := by
  cases rest with
  | nil => exact absurd rfl h
  | cons b bs =>
    have hk : 0 < cutLength (b :: bs) := cutLength_pos h
    rw [List.length_cons, parseChunks]
    cases hd : chunkDecode cfg.crcImpl (slice (b :: bs) 0 (cutLength (b :: bs))) with
    | error e => rfl
    | ok c =>
      dsimp only
      split
      · apply parseChunks_fuel
        · rw [List.length_drop, List.length_cons]; omega
        · exact Nat.le_refl _
      · rfl

@[simp] theorem parseChunks_nil (cfg : Config) (f p : Nat) (out : List Chunk) (bytes : Nat) :
    parseChunks cfg f [] p out bytes = .ok out := by
  cases f <;> rfl

/-! ## Matching (43_container R202) -/

theorem firstMatch_eq_none {t : Tag} {l : List Chunk} : firstMatch t l = none ↔ ∀ c ∈ l, c.tag ≠ t := by
  induction l with
  | nil => simp [firstMatch]
  | cons c l ih =>
    by_cases h : c.tag = t
    · simp [firstMatch, h]
    · simp [firstMatch, h, ih]

/-- The first match, with the chunks before it. -/
theorem firstMatch_append {t : Tag} {before after : List Chunk} {c : Chunk} (hc : c.tag = t)
    (hb : ∀ d ∈ before, d.tag ≠ t) : firstMatch t (before ++ c :: after) = some before.length := by
  induction before with
  | nil => simp [firstMatch, hc]
  | cons d before ih =>
    have hd : d.tag ≠ t := hb d (by simp)
    simp [firstMatch, hd, ih fun e he => hb e (by simp [he])]

/-- A match splits the store. -/
theorem firstMatch_split {t : Tag} {l : List Chunk} {i : Nat} (h : firstMatch t l = some i) :
    ∃ before c after, l = before ++ c :: after ∧ before.length = i ∧ c.tag = t ∧ ∀ d ∈ before, d.tag ≠ t := by
  induction l generalizing i with
  | nil => simp [firstMatch] at h
  | cons c l ih =>
    by_cases hc : c.tag = t
    · simp [firstMatch, hc] at h
      exact ⟨[], c, l, rfl, by simpa using h, hc, by simp⟩
    · simp only [firstMatch, if_neg hc, Option.map_eq_some_iff] at h
      obtain ⟨j, hj, rfl⟩ := h
      obtain ⟨b, d, a, rfl, hl, hd, hb⟩ := ih hj
      refine ⟨c :: b, d, a, rfl, by simp [hl], hd, ?_⟩
      intro e he
      rcases List.mem_cons.1 he with rfl | he
      · exact hc
      · exact hb e he

end Sys2Proof.Machine
end

