-- ==== Sys2Proof/Laws/Bus.lean ====
section
/-! SUPPORT. Everything a host access can do: which accesses reach what, and what a host's turn changes. -/

namespace Sys2Proof.Machine

/-! ## Which accesses reach what (20_memory R61 to R63, R69, R70) -/

theorem inRegs_iff (c : Config) (a : Nat) : inRegs c a = true ↔ c.base ≤ a ∧ a < c.base + 0x100 := by simp [inRegs]

theorem inIbuf_iff (c : Config) (a : Nat) :
    inIbuf c a = true ↔ c.base + c.ibufOffset ≤ a ∧ a < c.base + c.ibufOffset + c.ibufSize := by simp [inIbuf]

theorem inObuf_iff (c : Config) (a : Nat) :
    inObuf c a = true ↔ c.base + c.obufOffset ≤ a ∧ a < c.base + c.obufOffset + c.obufSize := by simp [inObuf]

/-- The windows are pairwise disjoint (20_memory R63). -/
theorem windows_disjoint {c : Config} (h : c.legal = true) (a : Nat) :
    ¬ (inIbuf c a = true ∧ inObuf c a = true) ∧ (inRegs c a = true → inIbuf c a = false ∧ inObuf c a = false) := by
  obtain ⟨_, h1, h2, h3, _⟩ := legal_facts h
  constructor
  · rw [inIbuf_iff, inObuf_iff]; omega
  · rw [inRegs_iff, ← Bool.not_eq_true, ← Bool.not_eq_true, inIbuf_iff, inObuf_iff]; omega

/-- The aligned 32-bit accesses of the register window (20_memory R61, R69). -/
theorem isRegAccess_reg {c : Config} (h : c.legal = true) {k : Nat} (hk : k < 64) :
    isRegAccess c .w32 (c.base + 4 * k) = true := by
  obtain ⟨h4, _⟩ := legal_facts h
  have h4' : (c.base + 4 * k) % 4 = 0 := by omega
  have hr : inRegs c (c.base + 4 * k) = true := (inRegs_iff _ _).2 (by omega)
  simp [isRegAccess, h4', hr]

theorem isRegAccess_false_of_not_inRegs {c : Config} {wd : Width} {a : Nat} (h : inRegs c a = false) :
    isRegAccess c wd a = false := by simp [isRegAccess, h]

theorem touchesBuffer_iff (c : Config) (wd : Width) (a : Nat) :
    touchesBuffer c wd a = true ↔ ∃ x, a ≤ x ∧ x < a + wd.bytes ∧ (inIbuf c x = true ∨ inObuf c x = true) := by
  simp [touchesBuffer, accessAddrs, List.mem_range'_1, and_assoc]

theorem touchesRegs_iff (c : Config) (wd : Width) (a : Nat) :
    touchesRegs c wd a = true ↔ ∃ x, a ≤ x ∧ x < a + wd.bytes ∧ inRegs c x = true := by
  simp [touchesRegs, accessAddrs, List.mem_range'_1, and_assoc]

theorem accessCovers_iff (lo size : Nat) (wd : Width) (a : Nat) :
    AccessCovers lo size wd a ↔ ∃ x, a ≤ x ∧ x < a + wd.bytes ∧ lo ≤ x ∧ x < lo + size := by
  constructor
  · rintro ⟨j, hj, x, hx, e⟩
    exact ⟨a + j, by omega, by omega, by omega, by omega⟩
  · rintro ⟨x, h1, h2, h3, h4⟩
    exact ⟨x - a, by omega, x - lo, by omega, by omega⟩

/-- The accesses that are this block's (20_memory R60 to R63). -/
theorem touchesBlock_iff (c : Config) (wd : Width) (a : Nat) :
    touchesBlock c wd a = true ↔
      AccessCovers c.base 0x100 wd a ∨ AccessCovers (c.base + c.ibufOffset) c.ibufSize wd a ∨
        AccessCovers (c.base + c.obufOffset) c.obufSize wd a := by
  simp only [touchesBlock, Bool.or_eq_true, touchesRegs_iff, touchesBuffer_iff, accessCovers_iff, inRegs_iff, inIbuf_iff,
    inObuf_iff, and_or_left, exists_or]

theorem touchesBlock_of_isRegAccess {c : Config} {wd : Width} {a : Nat} (h : isRegAccess c wd a = true) :
    touchesBlock c wd a = true := by
  simp only [isRegAccess, Bool.and_eq_true, decide_eq_true_eq] at h
  obtain ⟨⟨rfl, _⟩, h⟩ := h
  simp [touchesBlock, (touchesRegs_iff c .w32 a).2 ⟨a, Nat.le_refl a, by simp [Width.bytes], h⟩]

/-- A register access covers no byte of a buffer window (20_memory R61, R63, R69). -/
theorem not_isRegAccess_of_covers {c : Config} (hl : c.legal = true) {off size : Nat} (ho : 0x100 ≤ off) {wd : Width}
    {a : Nat} (h : AccessCovers (c.base + off) size wd a) : isRegAccess c wd a = false := by
  rw [← Bool.not_eq_true]
  intro hr
  simp only [isRegAccess, Bool.and_eq_true, decide_eq_true_eq, beq_iff_eq, inRegs_iff] at hr
  obtain ⟨⟨rfl, h4⟩, _, h5⟩ := hr
  obtain ⟨x, _, h2, h3, _⟩ := (accessCovers_iff _ _ _ _).1 h
  obtain ⟨hb, _⟩ := legal_facts hl
  simp only [Width.bytes] at h2
  omega

theorem Width.bytes_pos (wd : Width) : 0 < wd.bytes := by cases wd <;> decide

theorem Width.bytes_le (wd : Width) : wd.bytes ≤ 4 := by cases wd <;> decide

/-! ## Register accesses -/

theorem busWrite_reg {s : State} (h : s.cfg.legal = true) {k : Nat} (hk : k < 64) (v : Word) :
    s.busWrite .w32 (s.cfg.base + 4 * k) v = if s.busy then { s with ovr := true } else s.hostWriteReg (4 * k) v := by
  simp [State.busWrite, isRegAccess_reg h hk, touchesBlock_of_isRegAccess (isRegAccess_reg h hk)]

theorem busRead_reg {s : State} (h : s.cfg.legal = true) {k : Nat} (hk : k < 64) :
    s.busRead .w32 (s.cfg.base + 4 * k) = s.hostReadReg (4 * k) := by
  simp [State.busRead, isRegAccess_reg h hk]

theorem ofOffset_offset (r : Reg) : Reg.ofOffset r.offset = some r := by cases r <;> rfl

theorem offset_eq (r : Reg) : ∃ k < 64, r.offset = 4 * k := by
  exact ⟨r.offset / 4, by cases r <;> decide, by cases r <;> rfl⟩

/-- A host write of one register while BUSY = 0. -/
theorem busWrite_offset {s : State} (h : s.cfg.legal = true) (hb : s.busy = false) (r : Reg) (v : Word) :
    s.busWrite .w32 (s.cfg.base + r.offset) v = s.writeReg r v := by
  obtain ⟨k, hk, e⟩ := offset_eq r
  rw [e, busWrite_reg h hk, hb, ← e, State.hostWriteReg, ofOffset_offset]
  rfl

/-- A host read of one register. -/
theorem busRead_offset {s : State} (h : s.cfg.legal = true) (r : Reg) :
    s.busRead .w32 (s.cfg.base + r.offset) =
      if s.busy && !r.readableBusy then Config.busyWord s.draws else readReg s r := by
  obtain ⟨k, hk, e⟩ := offset_eq r
  rw [e, busRead_reg h hk, ← e, State.hostReadReg, ofOffset_offset]

/-! ## What a host write and a host turn change -/

/-- A host write changes only CTRL, STATUS, CMD, the operand registers and the buffers' bytes. -/
theorem writeReg_frame (s : State) (r : Reg) (v : Word) :
    s.writeReg r v =
      { s with
        irqEn := (s.writeReg r v).irqEn, busy := (s.writeReg r v).busy, done := (s.writeReg r v).done,
        ovr := (s.writeReg r v).ovr, errCode := (s.writeReg r v).errCode, cmd := (s.writeReg r v).cmd,
        arg0 := (s.writeReg r v).arg0, tlen := (s.writeReg r v).tlen, ioff := (s.writeReg r v).ioff,
        ilen := (s.writeReg r v).ilen } := by
  cases r <;> rfl

/-- A host write of one byte changes only the buffers' bytes. -/
theorem busWriteByte_frame (s : State) (a : Nat) (b : Byte) :
    s.busWriteByte a b = { s with ibuf := (s.busWriteByte a b).ibuf, obuf := (s.busWriteByte a b).obuf } := by
  unfold State.busWriteByte
  split
  · rfl
  · split <;> rfl

theorem busWriteBytes_frame (s : State) (a : Nat) (bs : List Byte) :
    s.busWriteBytes a bs = { s with ibuf := (s.busWriteBytes a bs).ibuf, obuf := (s.busWriteBytes a bs).obuf } := by
  induction bs generalizing s a with
  | nil => rfl
  | cons b bs ih =>
    rw [State.busWriteBytes, ih, busWriteByte_frame]

/-- Everything a host write can do. -/
theorem busWrite_cases (s : State) (wd : Width) (a : Nat) (v : Word) :
    s.busWrite wd a v = s ∨
    (s.busy = true ∧ s.busWrite wd a v = { s with ovr := true }) ∨
    (s.busy = false ∧ ∃ r, s.busWrite wd a v = s.writeReg r v) ∨
    (s.busy = false ∧ s.busWrite wd a v = s.busWriteBytes a (leBytes wd.bytes v)) := by
  unfold State.busWrite
  split
  · cases hb : s.busy with
    | true => exact .inr (.inl ⟨rfl, by simp⟩)
    | false =>
      simp only [Bool.false_eq_true, if_false]
      split
      · cases hr : Reg.ofOffset (a - s.cfg.base) with
        | none => exact .inl (by rw [State.hostWriteReg, hr])
        | some r => exact .inr (.inr (.inl ⟨trivial, r, by rw [State.hostWriteReg, hr]⟩))
      · exact .inr (.inr (.inr ⟨trivial, rfl⟩))
  · exact .inl rfl

/-- Everything a host turn can do: nothing, a read, a write, or one poll of `wait`. -/
theorem hostTurn_cases (s : State) :
    (s.host = [] ∧ s.hostTurn = s) ∨
    (∃ wd a rest, s.host = .read wd a :: rest ∧
      s.hostTurn = { s with host := rest, reads := s.busRead wd a :: s.reads, draws := s.draws + 1 }) ∨
    (∃ wd a v rest, s.host = .write wd a v :: rest ∧ s.hostTurn = { s with host := rest }.busWrite wd a v) ∨
    (∃ v host, s.hostTurn = { s with host := host, reads := v :: s.reads, draws := s.draws + 1 }) := by
  unfold State.hostTurn
  split
  · exact .inl ⟨‹_›, rfl⟩
  · exact .inr (.inl ⟨_, _, _, ‹_›, rfl⟩)
  · exact .inr (.inr (.inl ⟨_, _, _, _, ‹_›, rfl⟩))
  · split
    · exact .inr (.inr (.inr ⟨_, s.host, rfl⟩))
    · exact .inr (.inr (.inr ⟨_, _, rfl⟩))

/-! ## Byte by byte (20_memory R67, R70) -/

/-- One byte of what an access that is no register access reads. -/
theorem busRead_byte {s : State} {wd : Width} {a : Nat} (hr : isRegAccess s.cfg wd a = false)
    (ht : touchesBlock s.cfg wd a = true) (i : Nat) :
    (s.busRead wd a).extractLsb' (8 * i) 8 = if i < wd.bytes then s.busReadByte (a + i) else 0 := by
  rw [State.busRead, if_neg (by simp [hr]), if_pos ht, leWord_extract _ _ (by simpa [accessAddrs] using wd.bytes_le)]
  by_cases hi : i < wd.bytes <;> simp [accessAddrs, hi]

theorem busWriteBytes_cfg (s : State) (a : Nat) (bs : List Byte) : (s.busWriteBytes a bs).cfg = s.cfg := by
  rw [busWriteBytes_frame]

/-- Every IBUF byte after the bytes of a host write. -/
theorem busWriteBytes_ibufByte (s : State) (a : Nat) (bs : List Byte) (y : Nat) :
    (s.busWriteBytes a bs).ibufByte y =
      if y < s.cfg.ibufSize ∧ a ≤ s.cfg.base + s.cfg.ibufOffset + y ∧
          s.cfg.base + s.cfg.ibufOffset + y < a + bs.length
      then bs.getD (s.cfg.base + s.cfg.ibufOffset + y - a) 0 else s.ibufByte y := by
  induction bs generalizing s a with
  | nil => rw [if_neg (by simp)]; rfl
  | cons b bs ih =>
    have hw : (s.busWriteByte a b).cfg = s.cfg := busWriteBytes_cfg s a [b]
    have hb : (s.busWriteByte a b).ibufByte y =
        if y < s.cfg.ibufSize ∧ s.cfg.base + s.cfg.ibufOffset + y = a then b else s.ibufByte y := by
      unfold State.busWriteByte
      split
      · rename_i h
        rw [inIbuf_iff] at h
        rw [ibufByte_write]
        by_cases e : y = a - (s.cfg.base + s.cfg.ibufOffset)
        · rw [if_pos e, if_pos (by omega)]
        · rw [if_neg e, if_neg (by omega)]
      · rename_i h
        rw [inIbuf_iff] at h
        have hn : ¬ (y < s.cfg.ibufSize ∧ s.cfg.base + s.cfg.ibufOffset + y = a) := by omega
        rw [if_neg hn]
        split <;> rfl
    rw [State.busWriteBytes, ih, hw, hb]
    by_cases h1 : y < s.cfg.ibufSize ∧ s.cfg.base + s.cfg.ibufOffset + y = a
    · rw [if_neg (by omega), if_pos h1, if_pos (by simp; omega), h1.2]; simp
    · by_cases h2 : y < s.cfg.ibufSize ∧ a + 1 ≤ s.cfg.base + s.cfg.ibufOffset + y ∧
          s.cfg.base + s.cfg.ibufOffset + y < a + 1 + bs.length
      · rw [if_pos h2, if_pos (by simp; omega)]
        obtain ⟨k, hk⟩ : ∃ k, s.cfg.base + s.cfg.ibufOffset + y = a + 1 + k := ⟨_, (Nat.add_sub_cancel' h2.2.1).symm⟩
        rw [hk, Nat.add_sub_cancel_left, show a + 1 + k - a = k + 1 by omega, List.getD_cons_succ]
      · rw [if_neg h2, if_neg h1, if_neg (by simp; omega)]

/-- Every OBUF byte after the bytes of a host write. -/
theorem busWriteBytes_obufByte {s : State} (hl : s.cfg.legal = true) (a : Nat) (bs : List Byte) (y : Nat) :
    (s.busWriteBytes a bs).obufByte y =
      if y < s.cfg.obufSize ∧ a ≤ s.cfg.base + s.cfg.obufOffset + y ∧
          s.cfg.base + s.cfg.obufOffset + y < a + bs.length
      then bs.getD (s.cfg.base + s.cfg.obufOffset + y - a) 0 else s.obufByte y := by
  induction bs generalizing s a with
  | nil => rw [if_neg (by simp)]; rfl
  | cons b bs ih =>
    have hw : (s.busWriteByte a b).cfg = s.cfg := busWriteBytes_cfg s a [b]
    have hb : (s.busWriteByte a b).obufByte y =
        if y < s.cfg.obufSize ∧ s.cfg.base + s.cfg.obufOffset + y = a then b else s.obufByte y := by
      obtain ⟨d, _⟩ := windows_disjoint hl a
      unfold State.busWriteByte
      split
      · rename_i h
        rw [inObuf_iff] at d
        rw [if_neg (fun e => d ⟨h, by omega⟩)]
        rfl
      · split
        · rename_i h
          rw [inObuf_iff] at h
          rw [obufByte_write]
          by_cases e : y = a - (s.cfg.base + s.cfg.obufOffset)
          · rw [if_pos e, if_pos (by omega)]
          · rw [if_neg e, if_neg (by omega)]
        · rename_i h
          rw [inObuf_iff] at h
          rw [if_neg (by omega)]
    rw [State.busWriteBytes, ih (by rw [hw]; exact hl), hw, hb]
    by_cases h1 : y < s.cfg.obufSize ∧ s.cfg.base + s.cfg.obufOffset + y = a
    · rw [if_neg (by omega), if_pos h1, if_pos (by simp; omega), h1.2]; simp
    · by_cases h2 : y < s.cfg.obufSize ∧ a + 1 ≤ s.cfg.base + s.cfg.obufOffset + y ∧
          s.cfg.base + s.cfg.obufOffset + y < a + 1 + bs.length
      · rw [if_pos h2, if_pos (by simp; omega)]
        obtain ⟨k, hk⟩ : ∃ k, s.cfg.base + s.cfg.obufOffset + y = a + 1 + k := ⟨_, (Nat.add_sub_cancel' h2.2.1).symm⟩
        rw [hk, Nat.add_sub_cancel_left, show a + 1 + k - a = k + 1 by omega, List.getD_cons_succ]
      · rw [if_neg h2, if_neg h1, if_neg (by simp; omega)]

/-- A host write with no byte in IBUF leaves IBUF's memory. -/
theorem busWriteBytes_ibuf (s : State) (a : Nat) (bs : List Byte)
    (h : ∀ x, a ≤ x → x < a + bs.length → inIbuf s.cfg x = false) : (s.busWriteBytes a bs).ibuf = s.ibuf := by
  induction bs generalizing s a with
  | nil => rfl
  | cons b bs ih =>
    have hw : (s.busWriteByte a b).cfg = s.cfg := busWriteBytes_cfg s a [b]
    rw [List.length_cons] at h
    rw [State.busWriteBytes, ih _ _ (fun x h1 h2 => by rw [hw]; exact h x (by omega) (by omega))]
    rw [State.busWriteByte, h a (Nat.le_refl a) (by omega), if_neg Bool.false_ne_true]
    split <;> rfl

/-- A host write with no byte in OBUF leaves OBUF's memory. -/
theorem busWriteBytes_obuf (s : State) (a : Nat) (bs : List Byte)
    (h : ∀ x, a ≤ x → x < a + bs.length → inObuf s.cfg x = false) : (s.busWriteBytes a bs).obuf = s.obuf := by
  induction bs generalizing s a with
  | nil => rfl
  | cons b bs ih =>
    have hw : (s.busWriteByte a b).cfg = s.cfg := busWriteBytes_cfg s a [b]
    rw [List.length_cons] at h
    rw [State.busWriteBytes, ih _ _ (fun x h1 h2 => by rw [hw]; exact h x (by omega) (by omega))]
    unfold State.busWriteByte
    split
    · rfl
    · rw [h a (Nat.le_refl a) (by omega), if_neg Bool.false_ne_true]

/-- The transactions of a `wb` statement, byte by byte (30_encoding R104). -/
theorem wbTxns_eq (a : Nat) (bs : List Byte) :
    wbTxns a bs = (List.range bs.length).map fun i => .write .w8 (a + i) ((bs.getD i 0).setWidth 32) := by
  induction bs generalizing a with
  | nil => rfl
  | cons b bs ih =>
    rw [wbTxns, ih, List.length_cons, List.range_succ_eq_map, List.map_cons, List.map_map]
    simp [Function.comp_def, Nat.add_assoc, Nat.add_comm 1]

end Sys2Proof.Machine
end

