-- ==== Sys2Proof/Laws/Exec.lean ====
section
/-! SUPPORT. Everything each command can do: an error of its rule with the state as at issue, or its results. -/

namespace Sys2Proof.Machine

variable (s : State)

/-- Every command answers a next state that is a completion (10_state R27), but SOFT_RESET's is over the reset registers. -/
theorem exec_complete (i : Instr) : ∃ r, exec i s = .next (s.complete r) := by
  cases i <;> exact ⟨_, rfl⟩

theorem exec_crcBuf_cases :
    (¬ s.RangeOk ∧ exec .crcBuf s = .next (s.raise ⟨.rangeError, s.ioff, s.ilen, 0⟩)) ∨
    (s.RangeOk ∧
      exec .crcBuf s = .next { s with crcState := crcRun s.cfg.crcImpl s.crcState s.input }.succeed) := by
  rcases inputRange_cases s with ⟨h, e⟩ | ⟨h, e⟩
  · exact .inr ⟨h, by simp [exec, execCrcBuf, e]⟩
  · exact .inl ⟨h, by simp [exec, execCrcBuf, e]⟩

theorem exec_tagBytes_cases :
    (∃ i, (Tag.unpack s.arg0).FailsAt i ∧
      exec .tagBytes s = .next (s.raise ⟨.invalidTagBytes, s.arg0, BitVec.ofNat 32 i, 0⟩)) ∨
    ((Tag.unpack s.arg0).letters = true ∧ exec .tagBytes s = .next { s with tag := s.arg0 }.succeed) := by
  rcases tagConstruct_cases (Tag.unpack s.arg0) with ⟨h, e⟩ | ⟨_, i, h, e⟩
  · exact .inr ⟨h, by simp [exec, execTagBytes, tagOperand, e]⟩
  · exact .inl ⟨i, h, by simp [exec, execTagBytes, tagOperand, e]⟩

theorem exec_tagText_cases :
    (s.tlen ≠ 4 ∧ exec .tagText s = .next (s.raise ⟨.invalidTagBytes, s.arg0, 0xFFFFFFFF, 0⟩)) ∨
    (∃ i, s.tlen = 4 ∧ (Tag.unpack s.arg0).FailsAt i ∧
      exec .tagText s = .next (s.raise ⟨.invalidTagBytes, s.arg0, BitVec.ofNat 32 i, 0⟩)) ∨
    (s.tlen = 4 ∧ (Tag.unpack s.arg0).letters = true ∧ exec .tagText s = .next { s with tag := s.arg0 }.succeed) := by
  rcases tagTextOperand_cases s with ⟨ht, et⟩ | ⟨ht, et⟩
  · rcases tagConstruct_cases (Tag.unpack s.arg0) with ⟨h, e⟩ | ⟨_, i, h, e⟩
    · exact .inr (.inr ⟨ht, h, by simp [exec, execTagText, et, e]⟩)
    · exact .inr (.inl ⟨i, ht, h, by simp [exec, execTagText, et, e]⟩)
  · exact .inl ⟨ht, by simp [exec, execTagText, et]⟩

theorem exec_chunkEncode_cases :
    let c := chunkConstruct s.cfg.crcImpl (Tag.unpack s.arg0) s.input
    (¬ s.RangeOk ∧ exec .chunkEncode s = .next (s.raise ⟨.rangeError, s.ioff, s.ilen, 0⟩)) ∨
    (∃ i, s.RangeOk ∧ (Tag.unpack s.arg0).FailsAt i ∧
      exec .chunkEncode s = .next (s.raise ⟨.invalidTagBytes, s.arg0, BitVec.ofNat 32 i, 0⟩)) ∨
    (s.RangeOk ∧ (Tag.unpack s.arg0).letters = true ∧ s.cfg.obufSize < s.ilen.toNat + 12 ∧
      exec .chunkEncode s = .next (s.raise ⟨.outputOverflow, count (s.ilen.toNat + 12), count s.cfg.obufSize, 0⟩)) ∨
    (s.RangeOk ∧ (Tag.unpack s.arg0).letters = true ∧ s.ilen.toNat + 12 ≤ s.cfg.obufSize ∧
      exec .chunkEncode s = .next ((s.writeOutput (chunkSerialize c)).producedChunk c).succeed) := by
  intro c
  have hc : (chunkSerialize c).length = s.ilen.toNat + 12 := by simp [c, chunkConstruct]
  rcases inputRange_cases s with ⟨hr, er⟩ | ⟨hr, er⟩
  · rcases tagConstruct_cases (Tag.unpack s.arg0) with ⟨ht, et⟩ | ⟨_, i, ht, et⟩
    · rcases outputFits_cases s (s.ilen.toNat + 12) with ⟨ho, eo⟩ | ⟨ho, eo⟩
      · refine .inr (.inr (.inr ⟨hr, ht, ho, ?_⟩))
        rw [← hc] at eo
        simp only [exec, execChunkEncode, tagOperand, er, et, try_ok, pure_eq_ok]
        simp only [c] at eo ⊢
        simp only [eo, try_ok, complete_ok]
      · refine .inr (.inr (.inl ⟨hr, ht, ho, ?_⟩))
        rw [← hc] at eo ⊢
        simp only [exec, execChunkEncode, tagOperand, er, et, try_ok, pure_eq_ok]
        simp only [c] at eo ⊢
        simp only [eo, try_error, complete_error]
    · exact .inr (.inl ⟨i, hr, ht, by simp [exec, execChunkEncode, tagOperand, er, et]⟩)
  · exact .inl ⟨hr, by simp [exec, execChunkEncode, er]⟩

theorem exec_chunkDecode_cases :
    (¬ s.RangeOk ∧ exec .chunkDecode s = .next (s.raise ⟨.rangeError, s.ioff, s.ilen, 0⟩)) ∨
    (∃ e, s.RangeOk ∧ chunkDecode s.cfg.crcImpl s.input = .error e ∧ exec .chunkDecode s = .next (s.raise e)) ∨
    (∃ c, s.RangeOk ∧ chunkDecode s.cfg.crcImpl s.input = .ok c ∧
      exec .chunkDecode s = .next (s.producedChunk c).succeed) := by
  rcases inputRange_cases s with ⟨hr, er⟩ | ⟨hr, er⟩
  · cases hd : chunkDecode s.cfg.crcImpl s.input with
    | error e => exact .inr (.inl ⟨e, hr, rfl, by simp [exec, execChunkDecode, er, hd]⟩)
    | ok c => exact .inr (.inr ⟨c, hr, rfl, by simp [exec, execChunkDecode, er, hd]⟩)
  · exact .inl ⟨hr, by simp [exec, execChunkDecode, er]⟩

theorem exec_pngParse_cases :
    (¬ s.RangeOk ∧ exec .pngParse s = .next (s.raise ⟨.rangeError, s.ioff, s.ilen, 0⟩)) ∨
    (∃ e, s.RangeOk ∧ containerParse s.cfg s.input = .error e ∧ exec .pngParse s = .next (s.raise e)) ∨
    (∃ l, s.RangeOk ∧ containerParse s.cfg s.input = .ok l ∧ exec .pngParse s = .next { s with store := l }.succeed) := by
  rcases inputRange_cases s with ⟨hr, er⟩ | ⟨hr, er⟩
  · cases hd : containerParse s.cfg s.input with
    | error e => exact .inr (.inl ⟨e, hr, rfl, by simp [exec, execPngParse, er, hd]⟩)
    | ok c => exact .inr (.inr ⟨c, hr, rfl, by simp [exec, execPngParse, er, hd]⟩)
  · exact .inl ⟨hr, by simp [exec, execPngParse, er]⟩

theorem exec_pngSerialize_cases :
    let out := containerSerialize s.cfg s.store
    (s.cfg.obufSize < out.length ∧
      exec .pngSerialize s = .next (s.raise ⟨.outputOverflow, count out.length, count s.cfg.obufSize, 0⟩)) ∨
    (out.length ≤ s.cfg.obufSize ∧ exec .pngSerialize s = .next (s.writeOutput out).succeed) := by
  intro out
  rcases outputFits_cases s out.length with ⟨ho, eo⟩ | ⟨ho, eo⟩
  · exact .inr ⟨ho, by simp only [out] at eo ⊢; simp [exec, execPngSerialize, eo]⟩
  · exact .inl ⟨ho, by simp only [out] at eo ⊢; simp [exec, execPngSerialize, eo]⟩

theorem exec_pngAppend_cases :
    let c := chunkConstruct s.cfg.crcImpl (Tag.unpack s.arg0) s.input
    let chunks := s.store.length + 1
    let bytes := payloadBytes s.store + s.ilen.toNat
    (¬ s.RangeOk ∧ exec .pngAppend s = .next (s.raise ⟨.rangeError, s.ioff, s.ilen, 0⟩)) ∨
    (∃ i, s.RangeOk ∧ (Tag.unpack s.arg0).FailsAt i ∧
      exec .pngAppend s = .next (s.raise ⟨.invalidTagBytes, s.arg0, BitVec.ofNat 32 i, 0⟩)) ∨
    (s.RangeOk ∧ (Tag.unpack s.arg0).letters = true ∧ ¬ (chunks ≤ s.cfg.maxChunks ∧ bytes ≤ s.cfg.storeBytes) ∧
      exec .pngAppend s = .next (s.raise ⟨.storeFull, count chunks, totalWord bytes, count 0⟩)) ∨
    (s.RangeOk ∧ (Tag.unpack s.arg0).letters = true ∧ chunks ≤ s.cfg.maxChunks ∧ bytes ≤ s.cfg.storeBytes ∧
      exec .pngAppend s = .next ({ s with store := s.store ++ [c] }.producedChunk c).succeed) := by
  intro c chunks bytes
  rcases inputRange_cases s with ⟨hr, er⟩ | ⟨hr, er⟩
  · rcases tagConstruct_cases (Tag.unpack s.arg0) with ⟨ht, et⟩ | ⟨_, i, ht, et⟩
    · by_cases hf : storeFits s.cfg chunks bytes = true
      · obtain ⟨h1, h2⟩ := (storeFits_iff _ _ _).1 hf
        refine .inr (.inr (.inr ⟨hr, ht, h1, h2, ?_⟩))
        simp only [chunks, bytes, c] at hf ⊢
        simp [exec, execPngAppend, tagOperand, er, et, appendFits, hf]
      · refine .inr (.inr (.inl ⟨hr, ht, fun h => hf ((storeFits_iff _ _ _).2 h), ?_⟩))
        simp only [chunks, bytes] at hf ⊢
        simp [exec, execPngAppend, tagOperand, er, et, appendFits, hf, storeFull]
    · exact .inr (.inl ⟨i, hr, ht, by simp [exec, execPngAppend, tagOperand, er, et]⟩)
  · exact .inl ⟨hr, by simp [exec, execPngAppend, er]⟩

theorem exec_pngRemove_cases :
    (s.tlen ≠ 4 ∧ exec .pngRemove s = .next (s.raise ⟨.invalidTagBytes, s.arg0, 0xFFFFFFFF, 0⟩)) ∨
    (∃ i, s.tlen = 4 ∧ (Tag.unpack s.arg0).FailsAt i ∧
      exec .pngRemove s = .next (s.raise ⟨.invalidTagBytes, s.arg0, BitVec.ofNat 32 i, 0⟩)) ∨
    (s.tlen = 4 ∧ (Tag.unpack s.arg0).letters = true ∧ firstMatch (Tag.unpack s.arg0) s.store = none ∧
      exec .pngRemove s = .next (s.raise ⟨.chunkNotFound, s.arg0, count s.store.length, 0⟩)) ∨
    (∃ i, s.tlen = 4 ∧ (Tag.unpack s.arg0).letters = true ∧ firstMatch (Tag.unpack s.arg0) s.store = some i ∧
      exec .pngRemove s =
        .next { s with store := s.store.take i ++ s.store.drop (i + 1), index := count i }.succeed) := by
  rcases tagTextOperand_cases s with ⟨ht, et⟩ | ⟨ht, et⟩
  · rcases tagConstruct_cases (Tag.unpack s.arg0) with ⟨h, e⟩ | ⟨_, i, h, e⟩
    · cases hm : firstMatch (Tag.unpack s.arg0) s.store with
      | none => exact .inr (.inr (.inl ⟨ht, h, rfl, by simp [exec, execPngRemove, et, e, removeIndex, hm]⟩))
      | some i => exact .inr (.inr (.inr ⟨i, ht, h, rfl, by simp [exec, execPngRemove, et, e, removeIndex, hm]⟩))
    · exact .inr (.inl ⟨i, ht, h, by simp [exec, execPngRemove, et, e]⟩)
  · exact .inl ⟨ht, by simp [exec, execPngRemove, et]⟩

/-- What PNG_FIND looks up. -/
theorem findIndex_eq :
    findIndex s =
      if s.tlen = 4 ∧ (Tag.unpack s.arg0).letters = true then firstMatch (Tag.unpack s.arg0) s.store else none := by
  rcases tagTextOperand_cases s with ⟨ht, et⟩ | ⟨ht, et⟩
  · rcases tagConstruct_cases (Tag.unpack s.arg0) with ⟨h, e⟩ | ⟨h, i, _, e⟩
    · simp [findIndex, et, e, ht, h]
    · simp [findIndex, et, e, h]
  · rw [if_neg fun h => ht h.1]
    simp [findIndex, et]

theorem exec_pngFind_cases :
    (∃ i, findIndex s = some i ∧ exec .pngFind s = .next { s with found := true, index := count i }.succeed) ∨
    (findIndex s = none ∧ exec .pngFind s = .next { s with found := false, index := 0xFFFFFFFF }.succeed) := by
  cases h : findIndex s with
  | none => exact .inr ⟨rfl, by simp [exec, execPngFind, h]⟩
  | some i => exact .inl ⟨i, rfl, by simp [exec, execPngFind, h]⟩

theorem exec_chunkRead_cases :
    (s.store.length ≤ s.arg0.toNat ∧
      exec .chunkRead s = .next (s.raise ⟨.indexRange, s.arg0, count s.store.length, 0⟩)) ∨
    (∃ c, s.store[s.arg0.toNat]? = some c ∧ s.cfg.obufSize < c.payload.length + 12 ∧
      exec .chunkRead s =
        .next (s.raise ⟨.outputOverflow, count (c.payload.length + 12), count s.cfg.obufSize, 0⟩)) ∨
    (∃ c, s.store[s.arg0.toNat]? = some c ∧ c.payload.length + 12 ≤ s.cfg.obufSize ∧
      exec .chunkRead s = .next ((s.writeOutput (chunkSerialize c)).producedChunk c).succeed) := by
  cases h : s.store[s.arg0.toNat]? with
  | none => exact .inl ⟨List.getElem?_eq_none_iff.1 h, by simp [exec, execChunkRead, storedChunk, indexOperand, h]⟩
  | some c =>
    rcases outputFits_cases s (c.payload.length + 12) with ⟨ho, eo⟩ | ⟨ho, eo⟩
    · exact .inr (.inr ⟨c, rfl, ho, by simp [exec, execChunkRead, storedChunk, indexOperand, h, eo]⟩)
    · exact .inr (.inl ⟨c, rfl, ho, by simp [exec, execChunkRead, storedChunk, indexOperand, h, eo]⟩)

end Sys2Proof.Machine
end

