-- ==== Sys2Proof/Laws/PerInstr.lean ====
section
/-! SUPPORT. One lemma per command about its word. -/

namespace Sys2Proof.Laws.CommandWord

/-- The command is well-formed and its word has the OPC in bits 7:0 and zero in bits 31:8 (30_encoding R90). -/
def Statement (i : Instr) : Prop :=
  i.wellFormed = true ∧ (encode i).extractLsb' 0 8 = i.opcode ∧ (encode i).extractLsb' 8 24 = 0

theorem nop : Statement .nop := ⟨rfl, rfl, rfl⟩
theorem crcInit : Statement .crcInit := ⟨rfl, rfl, rfl⟩
theorem crcByte : Statement .crcByte := ⟨rfl, rfl, rfl⟩
theorem crcBuf : Statement .crcBuf := ⟨rfl, rfl, rfl⟩
theorem crcLoad : Statement .crcLoad := ⟨rfl, rfl, rfl⟩
theorem tagBytes : Statement .tagBytes := ⟨rfl, rfl, rfl⟩
theorem tagText : Statement .tagText := ⟨rfl, rfl, rfl⟩
theorem chunkEncode : Statement .chunkEncode := ⟨rfl, rfl, rfl⟩
theorem chunkDecode : Statement .chunkDecode := ⟨rfl, rfl, rfl⟩
theorem pngParse : Statement .pngParse := ⟨rfl, rfl, rfl⟩
theorem pngSerialize : Statement .pngSerialize := ⟨rfl, rfl, rfl⟩
theorem pngClear : Statement .pngClear := ⟨rfl, rfl, rfl⟩
theorem pngAppend : Statement .pngAppend := ⟨rfl, rfl, rfl⟩
theorem pngRemove : Statement .pngRemove := ⟨rfl, rfl, rfl⟩
theorem pngFind : Statement .pngFind := ⟨rfl, rfl, rfl⟩
theorem chunkRead : Statement .chunkRead := ⟨rfl, rfl, rfl⟩
theorem softReset : Statement .softReset := ⟨rfl, rfl, rfl⟩

end Sys2Proof.Laws.CommandWord
end

