-- ==== Sys2Proof/Laws/Step.lean ====
section
/-! SUPPORT. Everything one step can do. -/

namespace Sys2Proof.Machine

/-- The engine's step when BUSY = 1 (10_state R27). -/
theorem step_of_engine {s : State} (hb : s.busy = true) (ht : s.nextTurn = .engine) :
    step s =
      match decodeCmd s.cmd with
      | .ok i => exec i s.popTurn
      | .error _ => completeIllegal s.popTurn s.cmd := by
  cases hd : decodeCmd s.cmd <;>
    simp only [step, turnStep, ht, engineTurn, State.pending, popTurn_busy, hb, if_true, popTurn_cmd, hd]

/-- One step: the host moves, the reset input is asserted, the engine is idle, runs a command, or reports an illegal
word. -/
theorem step_cases (s : State) :
    (s.nextTurn = .host ∧ step s = .next s.popTurn.hostTurn) ∨
    (s.nextTurn = .reset ∧ step s = .next s.popTurn.hwReset) ∨
    (s.nextTurn = .engine ∧ s.busy = false ∧ step s = .next s.popTurn) ∨
    (∃ i, s.nextTurn = .engine ∧ s.busy = true ∧ decodeCmd s.cmd = .ok i ∧ step s = exec i s.popTurn) ∨
    (∃ r, s.nextTurn = .engine ∧ s.busy = true ∧ decodeCmd s.cmd = .error r ∧
      step s = .next (s.popTurn.raise ⟨.illegalCommand, s.cmd, 0, 0⟩)) := by
  cases h : s.nextTurn with
  | host => exact .inl ⟨rfl, by simp only [step, turnStep, h]⟩
  | reset => exact .inr (.inl ⟨rfl, by simp only [step, turnStep, h]⟩)
  | engine =>
    cases hb : s.busy with
    | false =>
      refine .inr (.inr (.inl ⟨rfl, rfl, ?_⟩))
      simp [step, turnStep, h, engineTurn, State.pending, hb]
    | true =>
      cases hd : decodeCmd s.cmd with
      | ok i => exact .inr (.inr (.inr (.inl ⟨i, rfl, rfl, rfl, by rw [step_of_engine hb h, hd]⟩)))
      | error r => exact .inr (.inr (.inr (.inr ⟨r, rfl, rfl, rfl, by rw [step_of_engine hb h, hd]; rfl⟩)))

/-- A run of n + 1 steps is a step and a run of n. -/
theorem run_succ_of_step {n : Nat} {s t : State} (h : step s = .next t) :
    Sys2Proof.core.run (n + 1) s = Sys2Proof.core.run n t := by
  simp only [Host.Core.run, core, h]

/-- While BUSY a host turn leaves the command in flight alone (10_state R26). -/
theorem hostTurn_busy {s : State} (h : s.busy = true) :
    s.hostTurn.busy = true ∧ s.hostTurn.cmd = s.cmd ∧ s.hostTurn.turns = s.turns := by
  rcases hostTurn_cases s with ⟨_, e⟩ | ⟨_, _, _, _, e⟩ | ⟨wd, a, v, rest, _, e⟩ | ⟨_, _, e⟩
  · rw [e]; exact ⟨h, rfl, rfl⟩
  · rw [e]; exact ⟨h, rfl, rfl⟩
  · rcases busWrite_cases { s with host := rest } wd a v with e' | ⟨_, e'⟩ | ⟨hf, _⟩ | ⟨hf, _⟩
    · rw [e, e']; exact ⟨h, rfl, rfl⟩
    · rw [e, e']; exact ⟨h, rfl, rfl⟩
    · exact absurd (h.symm.trans hf) (by decide)
    · exact absurd (h.symm.trans hf) (by decide)
  · rw [e]; exact ⟨h, rfl, rfl⟩

end Sys2Proof.Machine
end

