-- ==== Sys2Proof/Tests/Slice0.lean ====
section
/-! SUPPORT. The model's own tests. Part 1: ill-formed configurations are refused; words written out from the opcode map
decode; single steps give the values of 95_test_vectors. Part 2: a witness for the hypotheses of every statement. -/

namespace Sys2Proof.Tests
open Sys2Proof.Machine

/-! ## Part 1a. WellFormed: one ill-formed configuration for each check of 00_scope R7 -/

theorem test_vector_configuration_is_legal : Config.vectors.legal = true := by decide

theorem test_misaligned_base_refused :
    { Config.vectors with base := 0x40000002 }.baseAligned = false ∧
    { Config.vectors with base := 0x40000002 }.legal = false := by decide

theorem test_buffer_over_registers_refused :
    { Config.vectors with ibufOffset := 0xFF }.offsetsClear = false ∧
    { Config.vectors with ibufOffset := 0xFF }.legal = false := by decide

theorem test_overlapping_buffers_refused :
    { Config.vectors with obufOffset := 0x1FFF }.windowsDisjoint = false ∧
    { Config.vectors with obufOffset := 0x1FFF }.legal = false := by decide

theorem test_small_buffer_refused :
    { Config.vectors with obufSize := 15 }.sizesInRange = false ∧
    { Config.vectors with obufSize := 15 }.legal = false := by decide

theorem test_no_chunk_capacity_refused :
    { Config.vectors with maxChunks := 0 }.capacityInRange = false ∧
    { Config.vectors with maxChunks := 0 }.legal = false := by decide

theorem test_short_signature_refused :
    { Config.vectors with signature := [0x89, 0x50] }.signatureLength = false ∧
    { Config.vectors with signature := [0x89, 0x50] }.legal = false := by decide

theorem test_every_command_is_well_formed : ∀ i : Instr, i.wellFormed = true := by
  intro i; cases i <;> rfl

/-! ## Part 1b. Decode: bits 31:8 zero, then the OPC of 30_encoding R92, written out bit by bit -/

theorem test_decode_control :
    decodeCmd 0b000000000000000000000000_00000000#32 = .ok .nop ∧
    decodeCmd 0b000000000000000000000000_11111111#32 = .ok .softReset := ⟨rfl, rfl⟩

theorem test_decode_crc :
    decodeCmd 0b000000000000000000000000_00000001#32 = .ok .crcInit ∧
    decodeCmd 0b000000000000000000000000_00000010#32 = .ok .crcByte ∧
    decodeCmd 0b000000000000000000000000_00000011#32 = .ok .crcBuf ∧
    decodeCmd 0b000000000000000000000000_00000100#32 = .ok .crcLoad := ⟨rfl, rfl, rfl, rfl⟩

theorem test_decode_tag :
    decodeCmd 0b000000000000000000000000_00010000#32 = .ok .tagBytes ∧
    decodeCmd 0b000000000000000000000000_00010001#32 = .ok .tagText := ⟨rfl, rfl⟩

theorem test_decode_chunk :
    decodeCmd 0b000000000000000000000000_00100000#32 = .ok .chunkEncode ∧
    decodeCmd 0b000000000000000000000000_00100001#32 = .ok .chunkDecode := ⟨rfl, rfl⟩

theorem test_decode_container :
    decodeCmd 0b000000000000000000000000_00110000#32 = .ok .pngParse ∧
    decodeCmd 0b000000000000000000000000_00110001#32 = .ok .pngSerialize ∧
    decodeCmd 0b000000000000000000000000_00110010#32 = .ok .pngClear ∧
    decodeCmd 0b000000000000000000000000_00110011#32 = .ok .pngAppend ∧
    decodeCmd 0b000000000000000000000000_00110100#32 = .ok .pngRemove ∧
    decodeCmd 0b000000000000000000000000_00110101#32 = .ok .pngFind ∧
    decodeCmd 0b000000000000000000000000_00110110#32 = .ok .chunkRead := ⟨rfl, rfl, rfl, rfl, rfl, rfl, rfl⟩

/-- 95_test_vectors L2.7 rows 2 to 8. -/
theorem test_decode_refuses_by_name :
    decodeCmd 0x00000005 = .error .unassignedOpcode ∧ decodeCmd 0x00000012 = .error .unassignedOpcode ∧
    decodeCmd 0x00000037 = .error .unassignedOpcode ∧ decodeCmd 0x000000FE = .error .unassignedOpcode ∧
    decodeCmd 0x00000100 = .error .mbzNotZero ∧ decodeCmd 0x80000001 = .error .mbzNotZero ∧
    decodeCmd 0xFFFFFFFF = .error .mbzNotZero := ⟨rfl, rfl, rfl, rfl, rfl, rfl, rfl⟩

theorem test_table_words :
    decodeTableWord 32 0x20 = some .chunkEncode ∧ decodeTableWord 8 0xFF = some .softReset ∧
    decodeTableWord 32 0x105 = none ∧ decodeTableWord 40 0x100000000 = none := by decide

/-! ## Part 1c. Single steps, with the values of 95_test_vectors -/

/-- P42: "This is where your secret message will be!". -/
def p42 : List Byte :=
  [0x54, 0x68, 0x69, 0x73, 0x20, 0x69, 0x73, 0x20, 0x77, 0x68, 0x65, 0x72, 0x65, 0x20, 0x79, 0x6F, 0x75, 0x72, 0x20, 0x73,
   0x65, 0x63] ++
  [0x72, 0x65, 0x74, 0x20, 0x6D, 0x65, 0x73, 0x73, 0x61, 0x67, 0x65, 0x20, 0x77, 0x69, 0x6C, 0x6C, 0x20, 0x62, 0x65, 0x21]

/-- RUST54. -/
def rust54 : List Byte := [0, 0, 0, 0x2A, 0x52, 0x75, 0x53, 0x74] ++ p42 ++ [0xAB, 0xD1, 0xD8, 0x4E]

/-- IEND12. -/
def iend12 : List Byte := [0, 0, 0, 0, 0x49, 0x45, 0x4E, 0x44, 0xAE, 0x42, 0x60, 0x82]

/-- SIGNATURE. -/
def sig : List Byte := [0x89, 0x50, 0x4E, 0x47, 0x0D, 0x0A, 0x1A, 0x0A]

/-- FILE74. -/
def file74 : List Byte := sig ++ rust54 ++ iend12

def rust : Chunk := ⟨⟨0x52, 0x75, 0x53, 0x74⟩, p42, 0xABD1D84E⟩
def iend : Chunk := ⟨⟨0x49, 0x45, 0x4E, 0x44⟩, [], 0xAE426082⟩

/-- The reset state with bytes in IBUF from 0, the range over them, and a tag operand of four bytes. -/
def start (bs : List Byte) (arg0 : Word) : State :=
  { State.reset with ibuf := Memory.writeSeq [] 0 bs, ilen := BitVec.ofNat 32 bs.length, arg0 := arg0, tlen := 4 }

/-- The reset state with STORE = [RuSt, IEND] and a tag operand. -/
def stored (arg0 : Word) : State := { start [] arg0 with store := [rust, iend] }

/-- The state after a command. -/
def after (i : Instr) (s : State) : Option State :=
  match exec i s with
  | .next t => some t
  | .fault _ => none
  | .refused _ => none

/-- STATUS and the ERR registers after a command. -/
def report (i : Instr) (s : State) : Option (List Word) :=
  (after i s).map fun t => [readReg t .status, t.errInfo0, t.errInfo1, t.errPos]

/-- L2.7 row 1. -/
theorem test_nop : report .nop State.reset = some [0x00000002, 0, 0, 0] := by decide

/-- L2.2 row 10. -/
theorem test_crc_init :
    (after .crcInit { State.reset with crcState := 0x340BC6D9 }).map (fun t => readReg t .crcResult) = some 0 := by decide

/-- L2.2 rows 1 and 2. -/
theorem test_crc_byte :
    (after .crcByte { State.reset with arg0 := 0x31 }).map (fun t => readReg t .crcResult) = some 0x83DCEFB7 ∧
    (after .crcByte { State.reset with arg0 := 0x1232, crcState := 0x7C231048 }).map (fun t => t.crcState) =
      some 0xB0ACBB32 := by decide +kernel

/-- L2.2 row 3, with both datapath forms. -/
theorem test_crc_buf :
    (after .crcBuf (start [0x31, 0x32, 0x33, 0x34, 0x35, 0x36, 0x37, 0x38, 0x39] 0)).map (fun t => readReg t .crcResult) =
      some 0xCBF43926 ∧
    crc32 .bitSerial [0x31, 0x32, 0x33, 0x34, 0x35, 0x36, 0x37, 0x38, 0x39] = 0xCBF43926 := by decide +kernel

/-- L2.2 row 7: the exact sum 2^32 does not wrap. -/
theorem test_crc_buf_range :
    report .crcBuf { State.reset with ioff := 0xFFFFFFFF, ilen := 1 } = some [0x00000906, 0xFFFFFFFF, 1, 0] := by decide

/-- L2.2 row 9. -/
theorem test_crc_load :
    (after .crcLoad { State.reset with arg0 := 0 }).map (fun t => readReg t .crcResult) = some 0xFFFFFFFF := by decide

/-- L1.2: "RuSt"; L2.3: the lowest failing byte. -/
theorem test_tag_bytes :
    (after .tagBytes { State.reset with arg0 := 0x52755374 }).map (fun t => readReg t .tagFlags) = some 0x1D ∧
    report .tagBytes { State.reset with arg0 := 0x61624043 } = some [0x00000106, 0x61624043, 2, 0] := by decide +kernel

/-- L2.3: the letter boundaries. -/
theorem test_letter_boundaries :
    [0x00, 0x40, 0x41, 0x5A, 0x5B, 0x60, 0x61, 0x7A, 0x7B, 0xC1].map isLetter =
      [false, false, true, true, false, false, true, true, false, false] := by decide

/-- L1.3: "Rust" is constructible and not valid; a length of 3 fails. -/
theorem test_tag_text :
    (after .tagText { State.reset with arg0 := 0x52757374, tlen := 4 }).map (fun t => readReg t .tagFlags) = some 0x09 ∧
    report .tagText { State.reset with arg0 := 0x52757374, tlen := 3 } =
      some [0x00000106, 0x52757374, 0xFFFFFFFF, 0] := by decide +kernel

/-- L2.4 row 1. -/
theorem test_chunk_encode :
    (after .chunkEncode (start p42 0x52755374)).map (fun t => (t.outLen, t.len, t.chk, (List.range 54).map t.obufByte)) =
      some (54, 42, 0xABD1D84E, rust54) := by decide +kernel

/-- L2.4 row 8: the range error beats the bad tag. -/
theorem test_chunk_encode_range :
    report .chunkEncode { State.reset with ioff := 4095, ilen := 2 } = some [0x00000906, 0x00000FFF, 2, 0] := by decide

/-- L2.5 row 1. -/
theorem test_chunk_decode :
    (after .chunkDecode (start rust54 0)).map (fun t => (t.tag, t.len, t.chk)) = some (0x52755374, 42, 0xABD1D84E) := by
  decide +kernel

/-- L2.5 rows 5, 8, 9, 11, 12, 14, 15: every error of a decode. -/
theorem test_chunk_decode_errors :
    [iend12.take 2, iend12.take 11, iend12 ++ [0], [0xFF, 0xFF, 0xFF, 0xFF] ++ iend12.drop 4, iend12.set 11 0x83,
      [0, 0, 0, 0, 0x52, 0x75, 0x35, 0x74, 0xE7, 0x23, 0xC5, 0x1D],
      [0, 0, 0, 0, 0x52, 0x75, 0x35, 0x74, 0, 0, 0, 0]].map (fun bs => report .chunkDecode (start bs 0)) =
    [some [0x00000206, 2, 4, 0], some [0x00000206, 11, 12, 0], some [0x00000306, 0, 1, 0],
      some [0x00000306, 0xFFFFFFFF, 0, 0], some [0x00000406, 0xAE426083, 0xAE426082, 0],
      some [0x00000106, 0x52753574, 2, 0], some [0x00000406, 0, 0xE723C51D, 0]] := by decide +kernel

/-- L2.6 row 2. -/
theorem test_png_parse :
    (after .pngParse (start file74 0)).map (fun t => t.store) = some [rust, iend] := by decide +kernel

/-- L2.6 rows 4, 7, 10 and 12. -/
theorem test_png_parse_errors :
    [sig.take 5, file74 ++ [0], sig ++ rust54 ++ iend12.take 10, file74.set 73 0x83].map
      (fun bs => report .pngParse (start bs 0)) =
    [some [0x00000606, 0x89504E47, 0x0D000000, 0], some [0x00000206, 1, 4, 74], some [0x00000206, 10, 12, 62],
      some [0x00000406, 0xAE426083, 0xAE426082, 62]] := by decide +kernel

/-- The store of L2.6 serializes to FILE74 (L1.5, container round trip). -/
theorem test_png_serialize :
    (after .pngSerialize (stored 0)).map (fun t => (t.outLen, (List.range 74).map t.obufByte)) = some (74, file74) := by
  decide +kernel

/-- L2.6, capacity row 3. -/
theorem test_png_serialize_overflow :
    report .pngSerialize { stored 0 with cfg := { Config.vectors with obufSize := 16 } } =
      some [0x00000A06, 74, 16, 0] := by decide +kernel

/-- L2.6, store operation row 15. -/
theorem test_png_clear :
    (after .pngClear (stored 0)).map (fun t => readReg t .nchunks) = some 0 := by decide

/-- L2.6, duplicates row 1. -/
theorem test_png_append :
    (after .pngAppend (start [0x31] 0x41414141)).map (fun t => (readReg t .nchunks, t.chk)) = some (1, 0x49FD2035) := by
  decide +kernel

/-- L2.6, capacity row 2: a second chunk over STORE_BYTES = 6. -/
theorem test_png_append_full :
    report .pngAppend { start [0x78] 0x41414141 with
      cfg := { Config.vectors with storeBytes := 6 }, store := [⟨⟨0x41, 0x41, 0x41, 0x41⟩, [0, 0, 0, 0, 0, 0], 0⟩] } =
      some [0x00000B06, 2, 7, 0] := by decide +kernel

/-- L2.6, store operation row 10. -/
theorem test_png_remove :
    (after .pngRemove (stored 0x52755374)).map (fun t => (t.store, t.index)) = some ([iend], 0) := by decide +kernel

/-- L2.6, store operation rows 11 and 13. -/
theorem test_png_remove_errors :
    report .pngRemove { start [] 0x52755374 with store := [iend] } = some [0x00000706, 0x52755374, 1, 0] ∧
    report .pngRemove (stored 0x52753574) = some [0x00000106, 0x52753574, 2, 0] := by decide +kernel

/-- L2.6, store operation rows 1, 3 and 5. -/
theorem test_png_find :
    [0x49454E44, 0x31323334, 0x72755374].map
      (fun w => (after .pngFind (stored w)).map (fun t => (t.found, t.index, t.errCode))) =
    [some (true, 1, 0), some (false, 0xFFFFFFFF, 0), some (false, 0xFFFFFFFF, 0)] := by decide +kernel

/-- L2.6, store operation row 7. -/
theorem test_chunk_read :
    (after .chunkRead (stored 1)).map (fun t => (t.outLen, t.tag, t.chk, (List.range 12).map t.obufByte)) =
      some (12, 0x49454E44, 0xAE426082, iend12) := by decide +kernel

/-- L2.6, store operation row 8, and capacity row 5. -/
theorem test_chunk_read_errors :
    report .chunkRead (stored 2) = some [0x00000C06, 2, 2, 0] ∧
    report .chunkRead { stored 0 with cfg := { Config.vectors with obufSize := 16 } } =
      some [0x00000A06, 54, 16, 0] := by decide +kernel

/-- L2.7 row 9. -/
theorem test_soft_reset :
    (after .softReset { stored 0 with crcState := 0x1234, ovr := true, irqEn := true }).map
      (fun t => ([readReg t .status, readReg t .cmd, readReg t .ctrl, readReg t .nchunks, t.crcState, t.index], t.irq)) =
    some ([0x00000002, 0xFF, 0, 0, 0xFFFFFFFF, 0xFFFFFFFF], false) := by decide

/-- A run of the machine, for the tests of the bus. -/
def stateAfter (n : Nat) (s : State) : Option State :=
  match Sys2Proof.core.run n s with
  | .next t => some t
  | .fault _ => none
  | .refused _ => none

/-- A program with one write of ARG0 after NOP, and a schedule. -/
def nopThenWrite (turns : List Turn) : State :=
  { State.reset.withProgram [.cmd .nop, .wr .arg0 5] with turns := turns }

/-- L2.8 rows 5 and 6: the two orders 60_exceptions R253 admits. -/
theorem test_write_before_and_after_completion :
    (stateAfter 3 (nopThenWrite [.host, .host, .engine])).map (fun t => (t.arg0, readReg t .status)) =
      some (0, 0x0000000A) ∧
    (stateAfter 3 (nopThenWrite [.host, .engine, .host])).map (fun t => (t.arg0, readReg t .status)) =
      some (5, 0x00000002) := by decide +kernel

/-- L2.8 row 12, and row 8: W1C leaves ERRCODE. -/
theorem test_bus_byte_order_and_status_clear :
    (List.range 4).map (State.reset.busWrite .w32 0x40001000 0x34333231).ibufByte = [0x31, 0x32, 0x33, 0x34] ∧
    readReg ({ State.reset with done := true, errCode := 4 }.busWrite .w32 0x40000008 0xFFFFFFFF) .status =
      0x00000404 := by decide +kernel

/-- A byte write to the register window: no effect while idle (20_memory R69), OVR while BUSY (10_state R26). -/
theorem test_malformed_register_write :
    readReg (State.reset.busWrite .w8 0x40000010 0xFF) .status = 0 ∧
    readReg ((State.reset.issue 0).busWrite .w8 0x40000010 0xFF) .status = 0x00000009 := by decide +kernel

/-- A command placed from reset runs on the very next step (L2.7 row 1). -/
theorem test_placed_command_runs :
    (stateAfter 1 (State.reset.withFetchWord 32 0xFF)).map (fun t => (readReg t .cmd, readReg t .status)) =
      some (0xFF, 0x00000002) ∧
    (stateAfter 1 (State.reset.withFetchWord 32 0x05)).map (fun t => (readReg t .status, t.errInfo0)) =
      some (0x00000806, 0x05) := by decide +kernel

/-! ## Part 2. Witnesses: states and operands that meet each statement's hypotheses -/

/-- A state with a command in flight. -/
def inFlight (w : Word) (turns : List Turn) : State := { State.reset.issue w with turns := turns }

/-- The bounds of the illegal ranges (30_encoding R93), and a word with MBZ bits set. -/
theorem witness_illegal_words :
    State.reset.busy = false ∧
    (∀ w : Word, (inFlight w []).cmd = w ∧ (inFlight w []).busy = true ∧ (inFlight w []).nextTurn = .engine) ∧
    (∀ w ∈ ([0x100, 0x05, 0x0F, 0x12, 0x1F, 0x22, 0x2F, 0x37, 0xFE, 0xFFFFFFFF] : List Word), IllegalWord w) ∧
    (∀ w ∈ ([0x00, 0x04, 0x10, 0x11, 0x20, 0x21, 0x30, 0x36, 0xFF] : List Word), ¬ IllegalWord w) :=
  ⟨rfl, fun _ => ⟨rfl, rfl, rfl⟩, by simp [IllegalWord], by simp [IllegalWord]⟩

theorem witness_engine_step :
    (inFlight 0x20 []).busy = true ∧ decodeCmd (inFlight 0x20 []).cmd = .ok .chunkEncode ∧ (inFlight 0x20 []).turns = [] ∧
    (inFlight 0xFF [.engine, .host]).busy = true ∧ decodeCmd (inFlight 0xFF [.engine, .host]).cmd = .ok .softReset ∧
    ∃ rest, (inFlight 0xFF [.engine, .host]).turns = .engine :: rest := ⟨rfl, rfl, rfl, rfl, rfl, _, rfl⟩

theorem witness_every_step :
    ∃ t, (inFlight 0x00 []).busy = true ∧ (inFlight 0x00 []).nextTurn = .engine ∧ step (inFlight 0x00 []) = .next t :=
  ⟨_, rfl, rfl, rfl⟩

theorem witness_busy_falls :
    (inFlight 0x00 [.host, .host, .engine]).busy = true ∧ Turn.reset ∉ (inFlight 0x00 [.host, .host, .engine]).turns ∧
    (inFlight 0x00 [.host, .reset]).busy = true := by decide

theorem witness_both_orders :
    let s := { inFlight 0x00 [] with host := [.write .w32 (0x40000000 + 0x10) 5] }
    s.cfg.legal = true ∧ s.busy = true ∧ decodeCmd s.cmd = .ok .nop ∧
      s.host = .write .w32 (s.cfg.base + 0x10) 5 :: [] := ⟨by decide, rfl, rfl, rfl⟩

theorem witness_reset_turn : (inFlight 0x20 [.reset]).nextTurn = .reset := rfl

/-- The range's bounds: 4096 + 0 is inside IBUF, 4096 + 1 and 0xFFFFFFFF + 1 are not. -/
theorem witness_crc_buf :
    { State.reset with ioff := 4096, ilen := 0 }.RangeOk ∧ { State.reset with ioff := 4095, ilen := 1 }.RangeOk ∧
    ¬ { State.reset with ioff := 4096, ilen := 1 }.RangeOk ∧
    ¬ { State.reset with ioff := 0xFFFFFFFF, ilen := 1 }.RangeOk ∧
    ({ State.reset with ioff := 4096, ilen := 0 }.ioff.toNat ≤ State.reset.cfg.ibufSize ∧
      { State.reset with ioff := 4096, ilen := 0 }.ilen = 0) := by
  unfold State.RangeOk; decide

/-- A letter tag, and tags that fail at their first and last byte (40_tag R121). -/
theorem witness_tag_operands :
    (Tag.unpack 0x52755374).letters = true ∧ (Tag.unpack 0x00616161).FailsAt 0 ∧ (Tag.unpack 0x4142435B).FailsAt 3 ∧
    (Tag.unpack 0x61624043).FailsAt 2 := by
  unfold Tag.FailsAt; decide +kernel

theorem witness_tag_text :
    { State.reset with tlen := 3 }.tlen ≠ 4 ∧ { State.reset with tlen := 5 }.tlen ≠ 4 ∧
    ((start [] 0x52755374).tlen = 4 ∧ (Tag.unpack (start [] 0x52755374).arg0).letters = true) ∧
    ((start [] 0x52753574).tlen = 4 ∧ (Tag.unpack (start [] 0x52753574).arg0).FailsAt 2) := by
  unfold Tag.FailsAt; decide +kernel

/-- A range out of IBUF; a bad tag; an output of 4097 bytes against 4096, and one of 4096 (42_chunk R166). -/
theorem witness_chunk_encode :
    ¬ { State.reset with ioff := 4095, ilen := 2 }.RangeOk ∧
    ((start [0x78] 0x52753374).RangeOk ∧ (Tag.unpack (start [0x78] 0x52753374).arg0).FailsAt 2) ∧
    (let s := { start [] 0x52755374 with ilen := 4085 };
      s.RangeOk ∧ (Tag.unpack s.arg0).letters = true ∧ s.cfg.obufSize < s.ilen.toNat + 12) ∧
    (let s := { start [] 0x52755374 with ilen := 4084 };
      s.RangeOk ∧ (Tag.unpack s.arg0).letters = true ∧ s.ilen.toNat + 12 ≤ s.cfg.obufSize) := by
  unfold State.RangeOk Tag.FailsAt; decide +kernel

/-- Each clause of the decode, at its bound: 3, 4, 11, 12 bytes, a wrong length, a wrong CRC, a bad tag, IEND12. -/
theorem witness_chunk_decode :
    (∀ n ∈ [3, 4, 11, 12], (start (iend12.take n) 0).RangeOk ∧ (start (iend12.take n) 0).ilen.toNat = n) ∧
    ¬ { State.reset with ioff := 4090, ilen := 12 }.RangeOk ∧
    (let s := start (iend12 ++ [0]) 0;
      s.RangeOk ∧ 12 ≤ s.ilen.toNat ∧ s.ilen.toNat ≠ (be32 s.input).toNat + 12) ∧
    (let s := start (iend12.set 11 0x83) 0;
      s.RangeOk ∧ s.ilen.toNat = (be32 s.input).toNat + 12 ∧
        be32 (s.input.drop (s.ilen.toNat - 4)) ≠ crc32 s.cfg.crcImpl ((s.input.drop 4).take (s.ilen.toNat - 8))) ∧
    (let s := start [0, 0, 0, 0, 0x52, 0x75, 0x35, 0x74, 0xE7, 0x23, 0xC5, 0x1D] 0;
      s.RangeOk ∧ s.ilen.toNat = (be32 s.input).toNat + 12 ∧
        be32 (s.input.drop (s.ilen.toNat - 4)) = crc32 s.cfg.crcImpl ((s.input.drop 4).take (s.ilen.toNat - 8)) ∧
        (Tag.ofBytes (s.input.drop 4)).FailsAt 2) ∧
    (let s := start iend12 0;
      s.RangeOk ∧ s.ilen.toNat = (be32 s.input).toNat + 12 ∧
        be32 (s.input.drop (s.ilen.toNat - 4)) = crc32 s.cfg.crcImpl ((s.input.drop 4).take (s.ilen.toNat - 8)) ∧
        (Tag.ofBytes (s.input.drop 4)).letters = true) := by
  unfold State.RangeOk Tag.FailsAt; decide +kernel

/-- No signature, for want of bytes and by a wrong byte; a container that parses; one that does not. -/
theorem witness_png_parse :
    Config.vectors.legal = true ∧ ¬ { State.reset with ioff := 4096, ilen := 1 }.RangeOk ∧
    (∀ bs ∈ [sig.take 7, sig.set 0 0x88],
      (start bs 0).RangeOk ∧ ¬ (start bs 0).cfg.signature <+: (start bs 0).input) ∧
    (let s := start (sig ++ iend12) 0;
      s.RangeOk ∧ s.cfg.signature <+: s.input ∧ containerParse s.cfg s.input = .ok [iend]) ∧
    (let s := start (sig ++ [0]) 0;
      s.RangeOk ∧ s.cfg.signature <+: s.input ∧
        containerParse s.cfg s.input = .error ⟨.truncatedInput, 1, 4, 8⟩) := by
  refine ⟨by decide, ?_, ?_, ⟨?_, ?_, rfl⟩, ⟨?_, ?_, rfl⟩⟩ <;> first | (unfold State.RangeOk; decide +kernel) | decide +kernel

theorem witness_png_serialize :
    (let s := { stored 0 with cfg := { Config.vectors with obufSize := 73 } };
      s.cfg.obufSize < (s.cfg.signature ++ (s.store.map chunkSerialize).flatten).length) ∧
    (let s := { stored 0 with cfg := { Config.vectors with obufSize := 74 } };
      (s.cfg.signature ++ (s.store.map chunkSerialize).flatten).length ≤ s.cfg.obufSize) := by decide +kernel

/-- Each clause, with both ways to be full, and the two bounds met exactly. -/
theorem witness_png_append :
    ¬ { State.reset with ioff := 4096, ilen := 1 }.RangeOk ∧
    ((start [] 0x52753574).RangeOk ∧ (Tag.unpack (start [] 0x52753574).arg0).FailsAt 2) ∧
    (let s := { stored 0x41414141 with cfg := { Config.vectors with maxChunks := 2 } };
      s.RangeOk ∧ (Tag.unpack s.arg0).letters = true ∧ s.cfg.maxChunks < s.store.length + 1) ∧
    (let s := { start [0x78] 0x41414141 with cfg := { Config.vectors with storeBytes := 42 }, store := [rust] };
      s.RangeOk ∧ (Tag.unpack s.arg0).letters = true ∧
        s.cfg.storeBytes < (s.store.map fun c => c.payload.length).sum + s.ilen.toNat) ∧
    (let s := { start [0x78] 0x41414141 with
        cfg := { Config.vectors with storeBytes := 43, maxChunks := 2 }, store := [rust] };
      s.RangeOk ∧ (Tag.unpack s.arg0).letters = true ∧ s.store.length + 1 ≤ s.cfg.maxChunks ∧
        (s.store.map fun c => c.payload.length).sum + s.ilen.toNat ≤ s.cfg.storeBytes) := by
  unfold State.RangeOk Tag.FailsAt; decide +kernel

/-- For PNG_REMOVE and PNG_FIND: a wrong length, a bad tag, an absent tag, and a match behind another chunk. -/
theorem witness_png_remove_and_find :
    { stored 0x52755374 with tlen := 3 }.tlen ≠ 4 ∧
    ((stored 0x52753574).tlen = 4 ∧ (Tag.unpack (stored 0x52753574).arg0).FailsAt 2 ∧
      (Tag.unpack (stored 0x52753574).arg0).letters = false) ∧
    ((stored 0x72755374).tlen = 4 ∧ (Tag.unpack (stored 0x72755374).arg0).letters = true ∧
      ∀ c ∈ (stored 0x72755374).store, c.tag ≠ Tag.unpack (stored 0x72755374).arg0) ∧
    ((stored 0x49454E44).tlen = 4 ∧ (Tag.unpack (stored 0x49454E44).arg0).letters = true ∧
      (stored 0x49454E44).store = [rust] ++ iend :: [] ∧ iend.tag = Tag.unpack (stored 0x49454E44).arg0 ∧
      ∀ d ∈ [rust], d.tag ≠ Tag.unpack (stored 0x49454E44).arg0) := by
  unfold Tag.FailsAt; decide +kernel

/-- Index = len(STORE) and the greatest index; a chunk that does not fit by one byte, and one that just fits. -/
theorem witness_chunk_read :
    ((stored 2).store.length ≤ (stored 2).arg0.toNat ∧ (stored 0xFFFFFFFF).store.length ≤ (stored 0xFFFFFFFF).arg0.toNat) ∧
    (let s := { stored 0 with cfg := { Config.vectors with obufSize := 53 } };
      s.store = [] ++ rust :: [iend] ∧ s.arg0.toNat = ([] : List Chunk).length ∧ s.cfg.obufSize < rust.payload.length + 12) ∧
    (let s := { stored 1 with cfg := { Config.vectors with obufSize := 16 } };
      s.store = [rust] ++ iend :: [] ∧ s.arg0.toNat = [rust].length ∧ iend.payload.length + 12 ≤ s.cfg.obufSize) := by
  decide +kernel

/-- For the statements about every command: a completion with an error, and one without. -/
theorem witness_exec_error_and_success :
    (∃ t, exec .chunkRead (stored 2) = .next t ∧ t.errCode ≠ 0) ∧
    (∃ t, Instr.pngClear ≠ .softReset ∧ exec .pngClear (stored 0) = .next t ∧ t.errCode = 0) ∧
    (∃ t, (stored 0).cfg.legal = true ∧ exec .pngSerialize (stored 0) = .next t ∧ t.errCode = 0) ∧
    (∃ t, exec .softReset (stored 0) = .next t) :=
  ⟨⟨_, rfl, by decide⟩, ⟨_, by decide, rfl, rfl⟩, ⟨_, by decide, rfl, rfl⟩, ⟨_, rfl⟩⟩

theorem witness_crc_register_kept :
    (∃ t, Instr.nop ∉ [Instr.crcInit, .crcByte, .crcBuf, .crcLoad, .softReset] ∧ exec .nop State.reset = .next t) ∧
    (∃ t, completeIllegal State.reset 0x05 = .next t) := ⟨⟨_, by decide, rfl⟩, ⟨_, rfl⟩⟩

theorem witness_parameters_kept : ∃ t, step (inFlight 0x20 []) = .next t := ⟨_, rfl⟩

theorem witness_unread_operands :
    ∃ t, exec .pngClear (stored 0) = .next t ∧ Instr.pngClear ≠ .softReset ∧
      Instr.pngClear ∈ [Instr.nop, .crcInit, .crcBuf, .chunkDecode, .pngParse, .pngSerialize, .pngClear] ∧
      Instr.pngClear ∉ [Instr.tagText, .pngRemove, .pngFind] ∧
      Instr.pngClear ∉ [Instr.crcBuf, .chunkEncode, .chunkDecode, .pngParse, .pngAppend] :=
  ⟨_, rfl, by decide, by decide, by decide, by decide⟩

/-- For the register writes and reads: a legal configuration, idle and busy. -/
theorem witness_registers :
    State.reset.cfg.legal = true ∧ State.reset.busy = false ∧ (inFlight 0x00 []).cfg.legal = true ∧
    (inFlight 0x00 []).busy = true := by decide

theorem witness_interrupt :
    (∃ t, Instr.nop ≠ .softReset ∧ exec .nop State.reset = .next t) ∧ (∃ t, exec .softReset State.reset = .next t) ∧
    (2#32).getLsbD 1 = true ∧ (1#32).getLsbD 0 = true ∧ { State.reset with done := true }.done = true :=
  ⟨⟨_, by decide, rfl⟩, ⟨_, rfl⟩, rfl, rfl, rfl⟩

/-- The first and last byte of each window, with BUSY = 1; an access that begins below its window, one that is malformed. -/
theorem witness_writes_while_busy :
    let s := inFlight 0x00 []
    s.cfg.legal = true ∧ s.busy = true ∧ AccessCovers s.cfg.base 0x100 .w32 0x40000000 ∧
      AccessCovers s.cfg.base 0x100 .w8 0x400000FF ∧ AccessCovers s.cfg.base 0x100 .w16 0x3FFFFFFF ∧
      AccessCovers (s.cfg.base + s.cfg.ibufOffset) s.cfg.ibufSize .w32 0x40000FFD ∧
      AccessCovers (s.cfg.base + s.cfg.ibufOffset) s.cfg.ibufSize .w8 0x40001FFF ∧
      AccessCovers (s.cfg.base + s.cfg.obufOffset) s.cfg.obufSize .w16 0x40002000 :=
  ⟨by decide, rfl, ⟨0, by decide, 0, by decide, rfl⟩, ⟨0, by decide, 255, by decide, rfl⟩, ⟨1, by decide, 0, by decide, rfl⟩,
    ⟨3, by decide, 0, by decide, rfl⟩, ⟨0, by decide, 4095, by decide, rfl⟩, ⟨0, by decide, 0, by decide, rfl⟩⟩

/-- The first and last read-only register, the first and last reserved offset. -/
theorem witness_read_only_registers :
    State.reset.cfg.legal = true ∧ State.reset.busy = false ∧
    (∀ k ∈ [0, 8, 20, 21, 63], k < 64 ∧ (k = 0 ∨ 8 ≤ k)) ∧ ∀ k ∈ [21, 63], 21 ≤ k := by decide

/-- No byte of the access is in a window of the vector configuration's buffers. -/
theorem covers_no_buffer {wd : Width} {a : Nat} (h : a + wd.bytes ≤ 0x40001000) :
    ¬ AccessCovers (State.reset.cfg.base + State.reset.cfg.ibufOffset) State.reset.cfg.ibufSize wd a ∧
    ¬ AccessCovers (State.reset.cfg.base + State.reset.cfg.obufOffset) State.reset.cfg.obufSize wd a := by
  constructor <;> rintro ⟨j, hj, x, _, e⟩ <;> simp only [State.reset, Config.vectors] at e <;> omega

/-- The first and last byte, a misaligned word, and a half word over the window's end. -/
theorem witness_malformed_access :
    State.reset.cfg.legal = true ∧
    ∀ p ∈ [(Width.w8, 0x40000000), (Width.w8, 0x400000FF), (Width.w32, 0x40000001), (Width.w16, 0x400000FF)],
      AccessCovers State.reset.cfg.base 0x100 p.1 p.2 ∧
      ¬ AccessCovers (State.reset.cfg.base + State.reset.cfg.ibufOffset) State.reset.cfg.ibufSize p.1 p.2 ∧
      ¬ AccessCovers (State.reset.cfg.base + State.reset.cfg.obufOffset) State.reset.cfg.obufSize p.1 p.2 ∧
      (p.1 ≠ .w32 ∨ p.2 % 4 ≠ 0) := by
  refine ⟨by decide, fun p hp => ?_⟩
  simp only [List.mem_cons, List.not_mem_nil, or_false] at hp
  rcases hp with rfl | rfl | rfl | rfl
  · exact ⟨⟨0, by decide, 0, by decide, rfl⟩, (covers_no_buffer (by decide)).1, (covers_no_buffer (by decide)).2, by decide⟩
  · exact ⟨⟨0, by decide, 255, by decide, rfl⟩, (covers_no_buffer (by decide)).1, (covers_no_buffer (by decide)).2, by decide⟩
  · exact ⟨⟨0, by decide, 1, by decide, rfl⟩, (covers_no_buffer (by decide)).1, (covers_no_buffer (by decide)).2, by decide⟩
  · exact ⟨⟨0, by decide, 255, by decide, rfl⟩, (covers_no_buffer (by decide)).1, (covers_no_buffer (by decide)).2, by decide⟩

/-- The first and last byte of each buffer, an access that begins below its window and reaches into it, one that runs over
the end and covers no byte of the other, and a byte outside both buffers; idle and while BUSY. -/
theorem witness_buffer_access :
    let c := State.reset.cfg
    c.legal = true ∧ State.reset.busy = false ∧ (inFlight 0x00 []).cfg = c ∧ (inFlight 0x00 []).busy = true ∧
    AccessCovers (c.base + c.ibufOffset) c.ibufSize .w8 0x40001000 ∧
    AccessCovers (c.base + c.ibufOffset) c.ibufSize .w32 0x40000FFF ∧
    AccessCovers (c.base + c.ibufOffset) c.ibufSize .w16 0x40001FFF ∧
    AccessCovers (c.base + c.obufOffset) c.obufSize .w16 0x40001FFF ∧
    AccessCovers (c.base + c.obufOffset) c.obufSize .w32 0x40002FFF ∧
    ¬ AccessCovers (c.base + c.obufOffset) c.obufSize .w32 0x40000FFF ∧
    ¬ AccessCovers (c.base + c.ibufOffset) c.ibufSize .w32 0x40002FFF ∧
    (¬ AccessCovers (c.base + c.ibufOffset) c.ibufSize .w8 (0x40000FFF + 0) ∧
      ¬ AccessCovers (c.base + c.obufOffset) c.obufSize .w8 (0x40000FFF + 0)) := by
  refine ⟨by decide, rfl, rfl, rfl, ⟨0, by decide, 0, by decide, rfl⟩, ⟨1, by decide, 0, by decide, rfl⟩,
    ⟨0, by decide, 4095, by decide, rfl⟩, ⟨1, by decide, 0, by decide, rfl⟩, ⟨0, by decide, 4095, by decide, rfl⟩, ?_, ?_,
    covers_no_buffer (by decide)⟩
  · rintro ⟨j, hj, x, _, e⟩
    simp only [State.reset, Config.vectors, Width.bytes] at e hj
    omega
  · rintro ⟨j, hj, x, hx, e⟩
    simp only [State.reset, Config.vectors] at e hx
    omega

theorem witness_reads :
    ∃ rest, { State.reset with host := [.read .w32 0x40000008] }.host = .read .w32 0x40000008 :: rest ∧
      State.reset.busy = false ∧
      touchesBlock Config.vectors .w32 0x40000008 = true :=
  ⟨_, rfl, rfl, by decide⟩

/-- A `wait` at the head of the host's list, with BUSY = 1 and with BUSY = 0. -/
theorem witness_wait :
    ∀ w ∈ [inFlight 0x00 [.host], State.reset],
      { w with host := [.wait, .read .w32 0x40000008] }.cfg.legal = true ∧
      { w with host := [.wait, .read .w32 0x40000008] }.host =
        encodeProgram w.cfg [.wait] ++ [.read .w32 0x40000008] := by decide

theorem witness_crc_impl : ∃ t, exec .crcBuf (start [0x31] 0) = .next t := ⟨_, rfl⟩

/-- Two adjacent ranges that end at the end of IBUF, and a run of zero bytes. -/
theorem witness_streaming :
    (∃ t u v, (4#32).toNat + (5#32).toNat < 2 ^ 32 ∧
      { State.reset with ioff := 4087 }.ioff.toNat + (4#32).toNat < 2 ^ 32 ∧
      { State.reset with ioff := 4087 }.ioff.toNat + (4#32 + 5#32).toNat ≤ State.reset.cfg.ibufSize ∧
      exec .crcBuf { State.reset with ioff := 4087, ilen := 4 } = .next t ∧
      exec .crcBuf { t with ioff := 4087 + 4, ilen := 5 } = .next u ∧
      exec .crcBuf { State.reset with ioff := 4087, ilen := 4 + 5 } = .next v) ∧
    ∀ b ∈ ([0, 0, 0] : List Byte), b = 0 :=
  ⟨⟨_, _, _, by decide, by decide, by decide, rfl, rfl, rfl⟩, by decide⟩

theorem rust_wf : Chunk.Wf .table rust := ⟨by decide +kernel, by decide, by decide +kernel⟩

theorem iend_wf : Chunk.Wf .table iend := ⟨by decide +kernel, by decide, by decide +kernel⟩

theorem witness_chunk_round_trip :
    Chunk.Wf .table rust ∧ iend12.length < 2 ^ 32 ∧ chunkDecode .table iend12 = .ok iend := ⟨rust_wf, by decide, rfl⟩

/-- A list that meets both bounds exactly; a byte that fails to decode after it; a chunk that passes a bound. -/
theorem witness_container :
    let cfg := { Config.vectors with maxChunks := 2, storeBytes := 42 }
    cfg.legal = true ∧ (∀ c ∈ [rust, iend], Chunk.Wf cfg.crcImpl c) ∧ [rust, iend].length ≤ cfg.maxChunks ∧
      ([rust, iend].map fun c => c.payload.length).sum ≤ cfg.storeBytes ∧
      ([0] : List Byte) ≠ [] ∧
      chunkDecode cfg.crcImpl (([0] : List Byte).take (if ([0] : List Byte).length < 4 then ([0] : List Byte).length
        else min ((be32 [0]).toNat + 12) ([0] : List Byte).length)) = .error ⟨.truncatedInput, 1, 4, 0⟩ ∧
      cfg.maxChunks < [rust, iend].length + 1 ∧
      { Config.vectors with storeBytes := 41 }.storeBytes <
        (([] : List Chunk).map fun d => d.payload.length).sum + rust.payload.length := by
  refine ⟨by decide, ?_, by decide, by decide, by decide, rfl, by decide, by decide⟩
  intro c hc
  simp only [List.mem_cons, List.not_mem_nil, or_false] at hc
  rcases hc with rfl | rfl
  · exact rust_wf
  · exact iend_wf

/-- The first tag byte and the last checksum byte, each changed by one bit. -/
theorem witness_tampered :
    Chunk.Wf .table rust ∧ (4 ≤ 4 ∧ 4 < rust.payload.length + 12 ∧ (0x53 : Byte) ≠ (chunkSerialize rust).getD 4 0) ∧
    (4 ≤ 53 ∧ 53 < rust.payload.length + 12 ∧ (0x4F : Byte) ≠ (chunkSerialize rust).getD 53 0) ∧
    (43 : Word) ≠ BitVec.ofNat 32 rust.payload.length := ⟨rust_wf, by decide +kernel, by decide +kernel, by decide⟩

/-- An append of an absent tag and one of a tag present; a removal of a tag present once, and one of an absent tag. -/
theorem witness_append_find_remove :
    (∃ t, Config.vectors.legal = true ∧ (stored 0x41414141).tlen = 4 ∧ exec .pngAppend (stored 0x41414141) = .next t ∧
      t.errCode = 0 ∧ ∀ c ∈ (stored 0x41414141).store, c.tag ≠ Tag.unpack (stored 0x41414141).arg0) ∧
    (∃ t, exec .pngAppend (stored 0x49454E44) = .next t ∧ t.errCode = 0 ∧
      (stored 0x49454E44).store = [rust] ++ iend :: [] ∧ iend.tag = Tag.unpack (stored 0x49454E44).arg0 ∧
      ∀ d ∈ [rust], d.tag ≠ Tag.unpack (stored 0x49454E44).arg0) ∧
    (∃ t, (Tag.unpack (stored 0x52755374).arg0).letters = true ∧ exec .pngRemove (stored 0x52755374) = .next t ∧
      (stored 0x52755374).store.countP (fun c => decide (c.tag = Tag.unpack (stored 0x52755374).arg0)) = 1) ∧
    (∃ t, exec .pngRemove (stored 0x41414141) = .next t ∧
      (stored 0x41414141).store.countP (fun c => decide (c.tag = Tag.unpack (stored 0x41414141).arg0)) = 0) :=
  ⟨⟨_, by decide, rfl, rfl, by decide +kernel, by decide +kernel⟩, ⟨_, rfl, by decide +kernel, rfl, by decide +kernel, by decide +kernel⟩,
    ⟨_, by decide +kernel, rfl, by decide +kernel⟩, ⟨_, rfl, by decide +kernel⟩⟩

/-- A state that meets the invariant and takes a step. -/
theorem witness_invariant : ∃ t, State.reset.Inv ∧ step State.reset = .next t :=
  ⟨_, ⟨by decide, Memory.Within.nil _, Memory.Within.nil _, fun _ h => absurd h (List.not_mem_nil), by decide, by decide,
    by decide, fun h => absurd h (by decide), .inl rfl, by decide⟩, rfl⟩

end Sys2Proof.Tests
end

section
/-! PROOFS of 00_scope: what a host transaction can change (R15), that no step changes the parameters (R7), and that the
choice of CRC_IMPL has no functional effect (R3). -/

namespace Sys2Proof.Machine

/-! ## A host transaction -/

/-- What a host transaction can write (CTRL, STATUS, CMD, the operand registers, buffer bytes, the model's record) as `t`
has it, everything else as `s` has it. The host's counterpart of `State.reportOf`. -/
def State.hostPartOf (s t : State) : State :=
  { s with
    irqEn := t.irqEn, busy := t.busy, done := t.done, ovr := t.ovr, errCode := t.errCode, cmd := t.cmd,
    arg0 := t.arg0, tlen := t.tlen, ioff := t.ioff, ilen := t.ilen, ibuf := t.ibuf, obuf := t.obuf,
    host := t.host, reads := t.reads, draws := t.draws }

theorem busWrite_eq_hostPartOf (s : State) (wd : Width) (a : Nat) (v : Word) :
    s.busWrite wd a v = s.hostPartOf (s.busWrite wd a v) := by
  rcases busWrite_cases s wd a v with e | ⟨_, e⟩ | ⟨_, r, e⟩ | ⟨_, e⟩ <;> rw [e]
  · rfl
  · rfl
  · rw [writeReg_frame]; rfl
  · rw [busWriteBytes_frame]; rfl

theorem hostTurn_eq_hostPartOf (s : State) : s.hostTurn = s.hostPartOf s.hostTurn := by
  rcases hostTurn_cases s with ⟨_, e⟩ | ⟨_, _, _, _, e⟩ | ⟨_, _, _, _, _, e⟩ | ⟨_, _, e⟩ <;> rw [e]
  · rfl
  · rfl
  · rw [busWrite_eq_hostPartOf]; rfl
  · rfl

/-- Settles O31, by the case split of a host turn: only a write reaches the block's state, and a write ends in one
register or in buffer bytes. -/
theorem hostTransactionsLeaveResultsAndStore : Obligations.HostTransactionsLeaveResultsAndStore :=
  hostTurn_eq_hostPartOf

/-! ## The parameters -/

@[simp] theorem hostTurn_cfg (s : State) : s.hostTurn.cfg = s.cfg := by
  rw [hostTurn_eq_hostPartOf]; rfl

/-- A command keeps the parameters: an error writes the report alone, and no result is a parameter. -/
theorem exec_cfg {i : Instr} {s t : State} (h : exec i s = .next t) : t.cfg = s.cfg := by
  cases i with
  | nop | crcInit | crcByte | crcLoad | pngClear | softReset => cases h; rfl
  | crcBuf => rcases exec_crcBuf_cases s with ⟨_, e⟩ | ⟨_, e⟩ <;> cases h.symm.trans e <;> rfl
  | tagBytes => rcases exec_tagBytes_cases s with ⟨_, _, e⟩ | ⟨_, e⟩ <;> cases h.symm.trans e <;> rfl
  | tagText =>
    rcases exec_tagText_cases s with ⟨_, e⟩ | ⟨_, _, _, e⟩ | ⟨_, _, e⟩ <;> cases h.symm.trans e <;> rfl
  | chunkEncode =>
    rcases exec_chunkEncode_cases s with ⟨_, e⟩ | ⟨_, _, _, e⟩ | ⟨_, _, _, e⟩ | ⟨_, _, _, e⟩ <;>
      cases h.symm.trans e <;> rfl
  | chunkDecode =>
    rcases exec_chunkDecode_cases s with ⟨_, e⟩ | ⟨_, _, _, e⟩ | ⟨_, _, _, e⟩ <;> cases h.symm.trans e <;> rfl
  | pngParse =>
    rcases exec_pngParse_cases s with ⟨_, e⟩ | ⟨_, _, _, e⟩ | ⟨_, _, _, e⟩ <;> cases h.symm.trans e <;> rfl
  | pngSerialize => rcases exec_pngSerialize_cases s with ⟨_, e⟩ | ⟨_, e⟩ <;> cases h.symm.trans e <;> rfl
  | pngAppend =>
    rcases exec_pngAppend_cases s with ⟨_, e⟩ | ⟨_, _, _, e⟩ | ⟨_, _, _, e⟩ | ⟨_, _, _, _, e⟩ <;>
      cases h.symm.trans e <;> rfl
  | pngRemove =>
    rcases exec_pngRemove_cases s with ⟨_, e⟩ | ⟨_, _, _, e⟩ | ⟨_, _, _, e⟩ | ⟨_, _, _, _, e⟩ <;>
      cases h.symm.trans e <;> rfl
  | pngFind => rcases exec_pngFind_cases s with ⟨_, _, e⟩ | ⟨_, e⟩ <;> cases h.symm.trans e <;> rfl
  | chunkRead =>
    rcases exec_chunkRead_cases s with ⟨_, e⟩ | ⟨_, _, _, e⟩ | ⟨_, _, _, e⟩ <;> cases h.symm.trans e <;> rfl

theorem step_cfg {s t : State} (h : step s = .next t) : t.cfg = s.cfg := by
  rcases step_cases s with ⟨_, e⟩ | ⟨_, e⟩ | ⟨_, _, e⟩ | ⟨i, _, _, _, e⟩ | ⟨_, _, _, _, e⟩
  · cases h.symm.trans e; simp
  · cases h.symm.trans e; rfl
  · cases h.symm.trans e; rfl
  · rw [exec_cfg (e.symm.trans h), popTurn_cfg]
  · cases h.symm.trans e; rfl

/-- Settles O32: the parameters by the case split of a step; ID is a constant of the register map. -/
theorem parametersAndIdNeverChange : Obligations.ParametersAndIdNeverChange :=
  fun _ _ h => ⟨step_cfg h, rfl⟩

/-! ## The two CRC datapaths agree (41_crc R142, R144)

The bit-serial step is linear over exclusive or. So the low byte of `c ^^^ b` and its upper 24 bits shift apart: the low
byte gives the table's entry, and the upper bits, which feed nothing back in eight shifts, give `c >>> 8`. -/

theorem crcShift_xor (a b : Word) : crcShift (a ^^^ b) = crcShift a ^^^ crcShift b := by
  rw [crcShift, crcShift, crcShift, BitVec.getLsbD_xor, BitVec.ushiftRight_xor_distrib]
  cases a.getLsbD 0 <;> cases b.getLsbD 0
  · rfl
  · exact BitVec.xor_assoc ..
  · simp only [Bool.xor_false, if_true, Bool.false_eq_true, if_false]; ac_rfl
  · have hp : crcPoly ^^^ crcPoly = 0#32 := BitVec.xor_self
    calc (a >>> 1) ^^^ (b >>> 1) = (a >>> 1) ^^^ (b >>> 1) ^^^ (crcPoly ^^^ crcPoly) := by rw [hp, BitVec.xor_zero]
      _ = (a >>> 1 ^^^ crcPoly) ^^^ (b >>> 1 ^^^ crcPoly) := by ac_rfl

theorem crcShifts_xor (n : Nat) (a b : Word) : crcShifts n (a ^^^ b) = crcShifts n a ^^^ crcShifts n b := by
  induction n generalizing a b with
  | zero => rfl
  | succ n ih => rw [crcShifts, crcShift_xor, ih]; rfl

/-- With no bit set below `n`, no shift of the first `n` meets the polynomial. -/
theorem crcShifts_of_low_clear (n : Nat) (c : Word) (h : ∀ i < n, c.getLsbD i = false) : crcShifts n c = c >>> n := by
  induction n generalizing c with
  | zero => rfl
  | succ n ih =>
    have hc : crcShift c = c >>> 1 := by rw [crcShift, h 0 (Nat.succ_pos n), if_neg Bool.false_ne_true]
    have hlow : ∀ i < n, (c >>> 1).getLsbD i = false := fun i hi => by
      simpa [Nat.add_comm 1 i] using h (i + 1) (by omega)
    rw [crcShifts, hc, ih _ hlow, ← BitVec.shiftRight_add, Nat.add_comm]

/-- The listing of the table is what its loop fills in (41_crc R141). -/
theorem crcTableAt_eq_crcTableLoop : ∀ n < 256, crcTableAt n = crcTableLoop n := by decide +kernel

/-- The word of a byte step, apart into its low byte and the upper 24 bits, which are those of `c`. -/
theorem crcInput_split (c : Word) (b : Byte) :
    c ^^^ b.setWidth 32 = ((c ^^^ b.setWidth 32) &&& (0xFF : Word)) ^^^ (c >>> 8 <<< 8) := by
  have hmask (i : Nat) : (0xFF : Word).getLsbD i = decide (i < 8) := Nat.testBit_two_pow_sub_one 8 i
  apply BitVec.eq_of_getLsbD_eq
  intro i hi
  rw [BitVec.getLsbD_xor, BitVec.getLsbD_xor, BitVec.getLsbD_and, hmask]
  by_cases h : i < 8
  · simp [h]
  · simp [h, hi, Nat.add_sub_cancel' (Nat.le_of_not_lt h), BitVec.getLsbD_of_ge b i (Nat.le_of_not_lt h)]

theorem crcStepBits_eq_crcStepTable (c : Word) (b : Byte) : crcStepBits c b = crcStepTable c b := by
  have hlow : ∀ x : Word, crcShifts 8 (x &&& 0xFF) = crcTableAt (x &&& 0xFF).toNat := fun x => by
    have hlt : (x &&& 0xFF).toNat < 256 := Nat.lt_succ_of_le (by rw [BitVec.toNat_and]; exact Nat.and_le_right)
    rw [crcTableAt_eq_crcTableLoop _ hlt, crcTableLoop, BitVec.ofNat_toNat, BitVec.setWidth_eq]
  have hhigh : crcShifts 8 (c >>> 8 <<< 8) = c >>> 8 := by
    rw [crcShifts_of_low_clear 8 _ fun i hi => by simp [hi]]
    ext i hi
    simpa using BitVec.lt_of_getLsbD (x := c) (i := 8 + i)
  rw [crcStepBits, crcInput_split, crcShifts_xor, hlow, hhigh, crcStepTable]

theorem crcStep_impl (impl impl' : CrcImpl) (c : Word) (b : Byte) : crcStep impl c b = crcStep impl' c b := by
  cases impl <;> cases impl' <;> simp [crcStep, crcStepBits_eq_crcStepTable]

theorem crcRun_impl (impl impl' : CrcImpl) (c : Word) (s : List Byte) : crcRun impl c s = crcRun impl' c s := by
  induction s generalizing c with
  | nil => rfl
  | cons b s ih => rw [crcRun, crcRun, crcStep_impl impl impl', ih]

/-! ## Nothing built on the CRC depends on the datapath -/

theorem crc32_impl (impl impl' : CrcImpl) (s : List Byte) : crc32 impl s = crc32 impl' s := by
  rw [crc32, crcRun_impl impl impl', crc32]

theorem chunkConstruct_impl (impl impl' : CrcImpl) (t : Tag) (p : List Byte) :
    chunkConstruct impl t p = chunkConstruct impl' t p := by
  rw [chunkConstruct, crc32_impl impl impl', chunkConstruct]

theorem chunkDecode_impl (impl impl' : CrcImpl) (s : List Byte) : chunkDecode impl s = chunkDecode impl' s := by
  rw [chunkDecode, crc32_impl impl impl', chunkDecode]

theorem parseChunks_impl (cfg : Config) (impl : CrcImpl) (fuel : Nat) (rest : List Byte) (p : Nat) (out : List Chunk)
    (bytes : Nat) :
    parseChunks { cfg with crcImpl := impl } fuel rest p out bytes = parseChunks cfg fuel rest p out bytes := by
  induction fuel generalizing rest p out bytes with
  | zero => cases rest <;> rfl
  | succ fuel ih =>
    cases rest with
    | nil => rfl
    | cons b bs =>
      rw [parseChunks, chunkDecode_impl _ cfg.crcImpl, parseChunks]
      simp only [ih]
      rfl

theorem containerParse_impl (cfg : Config) (impl : CrcImpl) (s : List Byte) :
    containerParse { cfg with crcImpl := impl } s = containerParse cfg s := by
  rw [containerParse, parseChunks_impl, containerParse]

/-! ## Commands under the other datapath -/

/-- The state with the other parameters kept and CRC_IMPL replaced. -/
def State.withCrcImpl (s : State) (impl : CrcImpl) : State := { s with cfg := { s.cfg with crcImpl := impl } }

/-- A completion whose first operation answers the same under both datapaths agrees when the rest does. -/
theorem complete_bind_withCrcImpl {s : State} {impl : CrcImpl} {α : Type} (x : Except CmdError α)
    {f g : α → Except CmdError State}
    (h : ∀ a, (s.withCrcImpl impl).complete (f a) = (s.complete (g a)).withCrcImpl impl) :
    (s.withCrcImpl impl).complete (x >>= f) = (s.complete (x >>= g)).withCrcImpl impl := by
  cases x with
  | error e => rfl
  | ok a => exact h a

theorem exec_withCrcImpl (i : Instr) (s : State) (impl : CrcImpl) :
    ∃ t, exec i s = .next t ∧ exec i (s.withCrcImpl impl) = .next (t.withCrcImpl impl) := by
  cases i with
  | nop | crcInit | crcLoad | pngClear | softReset => exact ⟨_, rfl, rfl⟩
  | crcByte =>
    refine ⟨_, rfl, ?_⟩
    rw [exec, execCrcByte, crcStep_impl _ s.cfg.crcImpl]
    rfl
  | crcBuf =>
    refine ⟨_, rfl, congrArg _ (complete_bind_withCrcImpl (inputRange s) fun bs => ?_)⟩
    rw [crcRun_impl _ s.cfg.crcImpl]
    rfl
  | tagBytes => exact ⟨_, rfl, congrArg _ (complete_bind_withCrcImpl (tagConstruct (tagOperand s)) fun _ => rfl)⟩
  | tagText =>
    exact ⟨_, rfl, congrArg _ (complete_bind_withCrcImpl (tagTextOperand s) fun b =>
      complete_bind_withCrcImpl (tagConstruct b) fun _ => rfl)⟩
  | chunkEncode =>
    refine ⟨_, rfl, congrArg _ (complete_bind_withCrcImpl (inputRange s) fun p =>
      complete_bind_withCrcImpl (tagConstruct (tagOperand s)) fun t => ?_)⟩
    rw [chunkConstruct_impl _ s.cfg.crcImpl]
    exact complete_bind_withCrcImpl (outputFits s _) fun _ => rfl
  | chunkDecode =>
    refine ⟨_, rfl, congrArg _ (complete_bind_withCrcImpl (inputRange s) fun bs => ?_)⟩
    rw [chunkDecode_impl _ s.cfg.crcImpl]
    exact complete_bind_withCrcImpl (chunkDecode s.cfg.crcImpl bs) fun _ => rfl
  | pngParse =>
    refine ⟨_, rfl, congrArg _ (complete_bind_withCrcImpl (inputRange s) fun bs => ?_)⟩
    rw [State.withCrcImpl, containerParse_impl]
    exact complete_bind_withCrcImpl (containerParse s.cfg bs) fun _ => rfl
  | pngSerialize => exact ⟨_, rfl, congrArg _ (complete_bind_withCrcImpl (outputFits s _) fun _ => rfl)⟩
  | pngAppend =>
    refine ⟨_, rfl, congrArg _ (complete_bind_withCrcImpl (inputRange s) fun p =>
      complete_bind_withCrcImpl (tagConstruct (tagOperand s)) fun t => ?_)⟩
    rw [chunkConstruct_impl _ s.cfg.crcImpl]
    exact complete_bind_withCrcImpl (appendFits s p) fun _ => rfl
  | pngRemove =>
    exact ⟨_, rfl, congrArg _ (complete_bind_withCrcImpl (tagTextOperand s) fun b =>
      complete_bind_withCrcImpl (tagConstruct b) fun t =>
        complete_bind_withCrcImpl (removeIndex s t) fun _ => rfl)⟩
  | pngFind =>
    refine ⟨_, rfl, ?_⟩
    have hf : findIndex (s.withCrcImpl impl) = findIndex s := rfl
    rw [exec, execPngFind, hf]
    cases findIndex s <;> rfl
  | chunkRead =>
    exact ⟨_, rfl, congrArg _ (complete_bind_withCrcImpl (storedChunk s) fun c =>
      complete_bind_withCrcImpl (outputFits s _) fun _ => rfl)⟩

/-- Settles O49: every operation a command is built of answers the same under both datapaths. -/
theorem crcImplHasNoFunctionalEffect : Obligations.CrcImplHasNoFunctionalEffect := by
  intro i s t impl h
  obtain ⟨u, hu, hw⟩ := exec_withCrcImpl i s impl
  cases h.symm.trans hu
  simpa only [State.withCrcImpl, exec_cfg h] using hw

end Sys2Proof.Machine
end

section
/-! PROOFS of 10_state: the invariant (R36, R37, R38, R26, R30), the registers the host writes and reads (R22 to R26, R40),
CRC_STATE (R28), and the reset values (R41). -/

namespace Sys2Proof.Machine

/-! ## Chunk values (R36): what a command derives or decodes is one -/

/-- What `chunk_construct` derives is a chunk value. -/
theorem chunkConstruct_wf {impl : CrcImpl} {t : Tag} {p : List Byte} (ht : t.letters = true)
    (hp : p.length ≤ 2 ^ 32 - 1) : Chunk.Wf impl (chunkConstruct impl t p) :=
  ⟨ht, hp, rfl⟩

/-- The chunk that CHUNK_ENCODE and PNG_APPEND derive from their operands is a chunk value: ILEN is a u32. -/
theorem operandChunk_wf {s : State} (ht : (Tag.unpack s.arg0).letters = true) :
    Chunk.Wf s.cfg.crcImpl (chunkConstruct s.cfg.crcImpl (Tag.unpack s.arg0) s.input) :=
  chunkConstruct_wf ht (by rw [input_length]; omega)

/-- Four bytes are the bytes of the tag they spell. -/
theorem bytes_ofBytes {s : List Byte} (h : s.length = 4) : (Tag.ofBytes s).bytes = s := by
  match s, h with
  | [_, _, _, _], _ => rfl

/-- Two adjacent slices are one (00_scope R9). -/
theorem slice_append_slice (s : List Byte) {i j k : Nat} (hij : i ≤ j) (hjk : j ≤ k) :
    slice s i j ++ slice s j k = slice s i k := by
  have hlen : k - i = (j - i) + (k - j) := by omega
  rw [slice, slice, slice, hlen, List.take_add, List.drop_drop, Nat.add_sub_cancel' hij]

/-- What decode answers is a chunk value. -/
theorem chunkDecode_wf {impl : CrcImpl} {s : List Byte} {c : Chunk} (h : chunkDecode impl s = .ok c) :
    Chunk.Wf impl c := by
  rcases chunkDecode_cases impl s with ⟨_, e⟩ | ⟨_, _, e⟩ | ⟨_, _, e⟩ | ⟨_, _, _, e⟩ |
    ⟨h12, hlen, hcrc, ⟨_, _, e⟩ | ⟨ht, e⟩⟩ <;> cases h.symm.trans e
  refine ⟨ht, ?_, ?_⟩
  · have hfield : (be32 s).toNat < 2 ^ 32 := (be32 s).isLt
    rw [slice_length]
    omega
  · have htag : (slice s 4 8).length = 4 := by rw [slice_length]; omega
    rw [bytes_ofBytes htag, slice_append_slice s (by decide) (by omega), hcrc]

/-! ## The store (R37) -/

/-- The part of `State.Inv` that speaks of STORE: chunk values within both bounds (R36, R37). -/
structure StoreWf (cfg : Config) (l : List Chunk) : Prop where
  chunks : ∀ c ∈ l, Chunk.Wf cfg.crcImpl c
  chunkCount : l.length ≤ cfg.maxChunks
  chunkBytes : payloadBytes l ≤ cfg.storeBytes

theorem StoreWf.nil (cfg : Config) : StoreWf cfg [] :=
  ⟨fun _ h => absurd h List.not_mem_nil, Nat.zero_le _, Nat.zero_le _⟩

/-- A chunk value added at the end within both bounds. -/
theorem StoreWf.concat {cfg : Config} {l : List Chunk} {c : Chunk} (h : StoreWf cfg l) (hc : Chunk.Wf cfg.crcImpl c)
    (hn : l.length + 1 ≤ cfg.maxChunks) (hb : payloadBytes l + c.payload.length ≤ cfg.storeBytes) :
    StoreWf cfg (l ++ [c]) where
  chunks d hd := by
    rcases List.mem_append.1 hd with hd | hd
    · exact h.chunks d hd
    · rwa [List.mem_singleton.1 hd]
  chunkCount := by simpa using hn
  chunkBytes := by simpa [payloadBytes_append, payloadBytes] using hb

/-- Chunks taken out of a store. -/
theorem StoreWf.sublist {cfg : Config} {l m : List Chunk} (h : StoreWf cfg l) (hm : m.Sublist l) : StoreWf cfg m where
  chunks c hc := h.chunks c (hm.subset hc)
  chunkCount := Nat.le_trans hm.length_le h.chunkCount
  chunkBytes := by
    have hle := (hm.map fun c => c.payload.length).sum_le_sum fun _ _ => Nat.zero_le _
    rw [← payloadBytes_eq_sum, ← payloadBytes_eq_sum] at hle
    exact Nat.le_trans hle h.chunkBytes

/-- The parse loop adds only chunk values, and checks both bounds before each. -/
theorem parseChunks_storeWf {cfg : Config} {fuel : Nat} {rest : List Byte} {p : Nat} {out l : List Chunk}
    (ho : StoreWf cfg out) (h : parseChunks cfg fuel rest p out (payloadBytes out) = .ok l) : StoreWf cfg l := by
  induction fuel generalizing rest p out with
  | zero => cases rest <;> cases h <;> exact ho
  | succ fuel ih =>
    cases rest with
    | nil => cases h; exact ho
    | cons b bs =>
      rw [parseChunks] at h
      cases hd : chunkDecode cfg.crcImpl (slice (b :: bs) 0 (cutLength (b :: bs))) with
      | error e => simp only [hd] at h; cases h
      | ok c =>
        simp only [hd] at h
        split at h
        · rename_i hfit
          obtain ⟨hn, hb⟩ := (storeFits_iff _ _ _).1 hfit
          have hbytes : payloadBytes (out ++ [c]) = payloadBytes out + c.payload.length := by
            simp [payloadBytes_append, payloadBytes]
          rw [← hbytes] at h
          exact ih (ho.concat (chunkDecode_wf hd) hn hb) h
        · cases h

theorem containerParse_storeWf {cfg : Config} {s : List Byte} {l : List Chunk} (h : containerParse cfg s = .ok l) :
    StoreWf cfg l := by
  rw [containerParse] at h
  split at h
  · cases h
  · exact parseChunks_storeWf (StoreWf.nil cfg) h

/-! ## The invariant under the operations on the state -/

/-- Every error kind has a legal code (60_exceptions R241). -/
theorem legalErrCode_code (k : ErrKind) : legalErrCode k.code = true := by cases k <;> rfl

/-- A hardware reset establishes the invariant from legal parameters alone. -/
theorem hwReset_inv {s : State} (h : s.cfg.legal = true) : s.hwReset.Inv where
  config := h
  ibuf := Memory.Within.nil _
  obuf := Memory.Within.nil _
  chunks := (StoreWf.nil _).chunks
  chunkCount := Nat.zero_le _
  chunkBytes := Nat.zero_le _
  errCode := rfl
  issued hb := nomatch hb
  tag := .inl rfl
  outLen := Nat.zero_le _

namespace State.Inv

variable {s : State} (h : s.Inv)
include h

theorem storeWf : StoreWf s.cfg s.store := ⟨h.chunks, h.chunkCount, h.chunkBytes⟩

theorem popTurn : s.popTurn.Inv := { h with }

theorem raise (e : CmdError) : (s.raise e).Inv :=
  { h with errCode := legalErrCode_code e.kind, issued := nofun }

theorem succeed : s.succeed.Inv := { h with errCode := rfl, issued := nofun }

theorem issue (w : Word) : (s.issue w).Inv := { h with errCode := rfl, issued := fun _ => ⟨rfl, rfl⟩ }

theorem setOverrun : { s with ovr := true }.Inv := { h with }

theorem setTag {w : Word} (hw : (Tag.unpack w).letters = true) : { s with tag := w }.Inv := { h with tag := .inr hw }

theorem setStore {l : List Chunk} (hl : StoreWf s.cfg l) : { s with store := l }.Inv :=
  { h with chunks := hl.chunks, chunkCount := hl.chunkCount, chunkBytes := hl.chunkBytes }

theorem writeOutput {out : List Byte} (ho : out.length ≤ s.cfg.obufSize) : (s.writeOutput out).Inv :=
  { h with
    obuf := h.obuf.writeSeq out (by rwa [Nat.zero_add])
    outLen := Nat.le_trans (Nat.mod_le _ _) ho }

theorem producedChunk {c : Chunk} (hc : c.tag.letters = true) : (s.producedChunk c).Inv :=
  { h with tag := .inr (by rwa [producedChunk_tag, unpack_pack]) }

theorem resetRegisters : s.resetRegisters.Inv :=
  { hwReset_inv h.config with ibuf := h.ibuf, obuf := h.obuf }

/-! ### The host's transactions -/

theorem writeReg (r : Reg) (v : Word) : (s.writeReg r v).Inv := by
  cases r with
  | status =>
    refine { h with issued := fun hb => ?_ }
    obtain ⟨hdone, hcode⟩ := h.issued hb
    exact ⟨by rw [State.writeReg, writeStatus_done, hdone]; rfl, hcode⟩
  | cmd => exact h.issue v
  | _ => exact { h with }

theorem busWriteByte (a : Nat) (b : Byte) : (s.busWriteByte a b).Inv := by
  unfold State.busWriteByte
  split
  · rename_i hi
    rw [inIbuf_iff] at hi
    exact { h with ibuf := h.ibuf.write b (by omega) }
  · split
    · rename_i ho
      rw [inObuf_iff] at ho
      exact { h with obuf := h.obuf.write b (by omega) }
    · exact h

theorem busWriteBytes (a : Nat) (bs : List Byte) : (s.busWriteBytes a bs).Inv := by
  induction bs generalizing s a with
  | nil => exact h
  | cons b bs ih => exact ih (h.busWriteByte a b) (a + 1)

theorem busWrite (wd : Width) (a : Nat) (v : Word) : (s.busWrite wd a v).Inv := by
  rcases busWrite_cases s wd a v with e | ⟨_, e⟩ | ⟨_, r, e⟩ | ⟨_, e⟩ <;> rw [e]
  · exact h
  · exact h.setOverrun
  · exact h.writeReg r v
  · exact h.busWriteBytes a _

theorem hostTurn : s.hostTurn.Inv := by
  rcases hostTurn_cases s with ⟨_, e⟩ | ⟨_, _, _, _, e⟩ | ⟨wd, a, v, rest, _, e⟩ | ⟨_, _, e⟩ <;> rw [e]
  · exact h
  · exact { h with }
  · have hrest : { s with host := rest }.Inv := { h with }
    exact hrest.busWrite wd a v
  · exact { h with }

/-! ### The commands -/

theorem exec {i : Instr} {t : State} (he : Machine.exec i s = .next t) : t.Inv := by
  cases i with
  | nop | crcInit | crcByte | crcLoad => cases he; exact { h.succeed with }
  | pngClear => cases he; exact (h.setStore (StoreWf.nil _)).succeed
  | softReset => cases he; exact { h.resetRegisters.succeed with }
  | crcBuf =>
    rcases exec_crcBuf_cases s with ⟨_, e⟩ | ⟨_, e⟩ <;> cases he.symm.trans e
    exacts [h.raise _, { h.succeed with }]
  | tagBytes =>
    rcases exec_tagBytes_cases s with ⟨_, _, e⟩ | ⟨ht, e⟩ <;> cases he.symm.trans e
    exacts [h.raise _, (h.setTag ht).succeed]
  | tagText =>
    rcases exec_tagText_cases s with ⟨_, e⟩ | ⟨_, _, _, e⟩ | ⟨_, ht, e⟩ <;> cases he.symm.trans e
    exacts [h.raise _, h.raise _, (h.setTag ht).succeed]
  | chunkEncode =>
    rcases exec_chunkEncode_cases s with ⟨_, e⟩ | ⟨_, _, _, e⟩ | ⟨_, _, _, e⟩ | ⟨_, ht, ho, e⟩ <;>
      cases he.symm.trans e
    · exact h.raise _
    · exact h.raise _
    · exact h.raise _
    · have hc := operandChunk_wf ht
      exact ((h.writeOutput (by simpa [chunkConstruct] using ho)).producedChunk hc.letters).succeed
  | chunkDecode =>
    rcases exec_chunkDecode_cases s with ⟨_, e⟩ | ⟨_, _, _, e⟩ | ⟨_, _, hd, e⟩ <;> cases he.symm.trans e
    exacts [h.raise _, h.raise _, (h.producedChunk (chunkDecode_wf hd).letters).succeed]
  | pngParse =>
    rcases exec_pngParse_cases s with ⟨_, e⟩ | ⟨_, _, _, e⟩ | ⟨_, _, hp, e⟩ <;> cases he.symm.trans e
    exacts [h.raise _, h.raise _, (h.setStore (containerParse_storeWf hp)).succeed]
  | pngSerialize =>
    rcases exec_pngSerialize_cases s with ⟨_, e⟩ | ⟨ho, e⟩ <;> cases he.symm.trans e
    exacts [h.raise _, (h.writeOutput ho).succeed]
  | pngAppend =>
    rcases exec_pngAppend_cases s with ⟨_, e⟩ | ⟨_, _, _, e⟩ | ⟨_, _, _, e⟩ | ⟨_, ht, hn, hb, e⟩ <;>
      cases he.symm.trans e
    · exact h.raise _
    · exact h.raise _
    · exact h.raise _
    · have hc := operandChunk_wf ht
      have hl := h.storeWf.concat hc hn (by simpa [chunkConstruct] using hb)
      exact ((h.setStore hl).producedChunk hc.letters).succeed
  | pngRemove =>
    rcases exec_pngRemove_cases s with ⟨_, e⟩ | ⟨_, _, _, e⟩ | ⟨_, _, _, e⟩ | ⟨i, _, _, _, e⟩ <;>
      cases he.symm.trans e
    · exact h.raise _
    · exact h.raise _
    · exact h.raise _
    · have hm : (s.store.take i ++ s.store.drop (i + 1)).Sublist s.store :=
        List.eraseIdx_eq_take_drop_succ s.store i ▸ List.eraseIdx_sublist s.store i
      exact { (h.setStore (h.storeWf.sublist hm)).succeed with }
  | pngFind => rcases exec_pngFind_cases s with ⟨_, _, e⟩ | ⟨_, e⟩ <;> cases he.symm.trans e <;> exact { h.succeed with }
  | chunkRead =>
    rcases exec_chunkRead_cases s with ⟨_, e⟩ | ⟨_, _, _, e⟩ | ⟨c, hc, ho, e⟩ <;> cases he.symm.trans e
    · exact h.raise _
    · exact h.raise _
    · have hwf := h.chunks c (List.mem_of_getElem? hc)
      exact ((h.writeOutput (by simpa using ho)).producedChunk hwf.letters).succeed

theorem step {t : State} (he : Machine.step s = .next t) : t.Inv := by
  rcases step_cases s with ⟨_, e⟩ | ⟨_, e⟩ | ⟨_, _, e⟩ | ⟨i, _, _, _, e⟩ | ⟨_, _, _, _, e⟩
  · cases he.symm.trans e; exact h.popTurn.hostTurn
  · cases he.symm.trans e; exact hwReset_inv h.config
  · cases he.symm.trans e; exact h.popTurn
  · exact h.popTurn.exec (e.symm.trans he)
  · cases he.symm.trans e; exact h.popTurn.raise _

end State.Inv

/-- Settles O58: each turn is a host transaction, a reset, or a command's completion, and each keeps the invariant. -/
theorem stepKeepsTheInvariant : Obligations.StepKeepsTheInvariant :=
  fun _ _ h => h.step

/-- Settles O57: the fields the invariant speaks of are those of a hardware reset under a legal configuration. -/
theorem invariantHoldsAtReset : Obligations.InvariantHoldsAtReset :=
  { hwReset_inv (s := State.reset) (by decide) with }

/-! ## CRC_STATE (R28) -/

/-- A completion commutes with a change of state that commutes with an error report, when its first operation answers the
same and the rest commutes. -/
theorem complete_bind_map {F : State → State} {s : State} (hraise : ∀ e, (F s).raise e = F (s.raise e)) {α : Type}
    (x : Except CmdError α) {f g : α → Except CmdError State}
    (h : ∀ a, (F s).complete (f a) = F (s.complete (g a))) :
    (F s).complete (x >>= f) = F (s.complete (x >>= g)) := by
  cases x with
  | error e => exact hraise e
  | ok a => exact h a

/-- The state with CRC_STATE replaced. -/
def State.withCrcState (s : State) (v : Word) : State := { s with crcState := v }

/-- A command that neither writes nor resets CRC_STATE keeps any value in it, and does the same. -/
theorem exec_withCrcState {i : Instr} (hi : i ∉ [Instr.crcInit, .crcByte, .crcBuf, .crcLoad, .softReset]) (s : State)
    (v : Word) : ∃ t, exec i s = .next t ∧ exec i (s.withCrcState v) = .next (t.withCrcState v) := by
  have bind := @complete_bind_map (State.withCrcState · v) s fun _ => rfl
  cases i with
  | crcInit | crcByte | crcBuf | crcLoad | softReset => simp at hi
  | nop | pngClear => exact ⟨_, rfl, rfl⟩
  | tagBytes => exact ⟨_, rfl, congrArg _ (bind (tagConstruct (tagOperand s)) fun _ => rfl)⟩
  | tagText => exact ⟨_, rfl, congrArg _ (bind (tagTextOperand s) fun b => bind (tagConstruct b) fun _ => rfl)⟩
  | chunkEncode =>
    exact ⟨_, rfl, congrArg _ (bind (inputRange s) fun p =>
      bind (tagConstruct (tagOperand s)) fun t => bind (outputFits s _) fun _ => rfl)⟩
  | chunkDecode =>
    exact ⟨_, rfl, congrArg _ (bind (inputRange s) fun bs =>
      bind (chunkDecode s.cfg.crcImpl bs) fun _ => rfl)⟩
  | pngParse => exact ⟨_, rfl, congrArg _ (bind (inputRange s) fun bs => bind (containerParse s.cfg bs) fun _ => rfl)⟩
  | pngSerialize => exact ⟨_, rfl, congrArg _ (bind (outputFits s _) fun _ => rfl)⟩
  | pngAppend =>
    exact ⟨_, rfl, congrArg _ (bind (inputRange s) fun p =>
      bind (tagConstruct (tagOperand s)) fun t => bind (appendFits s p) fun _ => rfl)⟩
  | pngRemove =>
    exact ⟨_, rfl, congrArg _ (bind (tagTextOperand s) fun b =>
      bind (tagConstruct b) fun t => bind (removeIndex s t) fun _ => rfl)⟩
  | pngFind =>
    refine ⟨_, rfl, ?_⟩
    have hf : findIndex (s.withCrcState v) = findIndex s := rfl
    rw [exec, execPngFind, hf]
    cases findIndex s <;> rfl
  | chunkRead => exact ⟨_, rfl, congrArg _ (bind (storedChunk s) fun c => bind (outputFits s _) fun _ => rfl)⟩

/-- Settles O30: a command that does the same over every value of CRC_STATE keeps, in particular, the one it finds. -/
theorem onlyCrcCommandsWriteTheCrcRegister : Obligations.OnlyCrcCommandsWriteTheCrcRegister := by
  have hsame : ∀ (i : Instr) (s t : State) (v : Word), i ∉ [Instr.crcInit, .crcByte, .crcBuf, .crcLoad, .softReset] →
      exec i s = .next t → exec i (s.withCrcState v) = .next (t.withCrcState v) := by
    intro i s t v hi h
    obtain ⟨u, hu, hv⟩ := exec_withCrcState hi s v
    cases h.symm.trans hu
    exact hv
  refine ⟨fun i s t hi h => ?_, fun s t w h => ?_, fun s => ?_, hsame⟩
  · have hs : exec i s = .next (t.withCrcState s.crcState) := hsame i s t s.crcState hi h
    injection h.symm.trans hs with ht
    rw [ht]
    rfl
  · cases h; rfl
  · rw [hostTurn_eq_hostPartOf]; rfl

/-! ## The registers on the host bus (R22 to R26, R40) -/

/-- The STATUS word above its four flags (R24). -/
theorem statusWord_above_flags (s : State) {i n : Nat} (h : 4 ≤ i) :
    s.statusWord.extractLsb' i n = (0#16 ++ s.errCode ++ 0#4).extractLsb' (i - 4) n := by
  rw [State.statusWord, BitVec.extractLsb'_append_eq_of_le (by omega), BitVec.extractLsb'_append_eq_of_le (by omega),
    BitVec.extractLsb'_append_eq_of_le (by omega), BitVec.extractLsb'_append_eq_of_le (by omega)]
  simp only [Nat.sub_sub]

/-- The four flags of the STATUS word (R24). -/
theorem statusWord_flags (s : State) :
    s.statusWord.getLsbD 0 = s.busy ∧ s.statusWord.getLsbD 1 = s.done ∧ s.statusWord.getLsbD 2 = s.err ∧
    s.statusWord.getLsbD 3 = s.ovr := by
  simp only [State.statusWord, BitVec.getLsbD_append]
  simp

/-- ERRCODE, and the reserved bits around it (R24). -/
theorem statusWord_fields (s : State) :
    s.statusWord.extractLsb' 4 4 = 0 ∧ s.statusWord.extractLsb' 8 8 = s.errCode ∧
    s.statusWord.extractLsb' 16 16 = 0 := by
  refine ⟨?_, ?_, ?_⟩
  · exact (statusWord_above_flags s (by decide)).trans BitVec.extractLsb'_append_eq_right
  · rw [statusWord_above_flags s (by decide), BitVec.extractLsb'_append_eq_of_le (by decide)]
    exact BitVec.extractLsb'_append_eq_right
  · rw [statusWord_above_flags s (by decide), BitVec.extractLsb'_append_eq_of_le (by decide)]
    exact BitVec.extractLsb'_append_eq_left

theorem err_eq (s : State) : s.err = decide (s.errCode ≠ 0) := by
  rw [State.err, bne, beq_eq_decide, decide_not]

/-- A write to a register through the bus while BUSY = 1 only sets OVR (R26). -/
theorem busWrite_offset_busy {s : State} (h : s.cfg.legal = true) (hb : s.busy = true) (r : Reg) (v : Word) :
    s.busWrite .w32 (s.cfg.base + r.offset) v = { s with ovr := true } := by
  obtain ⟨k, hk, e⟩ := offset_eq r
  rw [e, busWrite_reg h hk, hb, if_pos rfl]

/-- A register that stores the whole word reads back through the bus, even when the write made the engine busy. -/
theorem busRead_busWrite_offset {s : State} (hl : s.cfg.legal = true) (hb : s.busy = false) {r : Reg} {v : Word}
    (hr : r.readableBusy = true) (hv : readReg (s.writeReg r v) r = v) :
    (s.busWrite .w32 (s.cfg.base + r.offset) v).busRead .w32 (s.cfg.base + r.offset) = v := by
  have hcfg : (s.writeReg r v).cfg = s.cfg := by rw [writeReg_frame]
  rw [busWrite_offset hl hb, ← hcfg, busRead_offset (by rwa [hcfg]), hr, hv]
  simp

/-- Settles O34: the fields by position in the STATUS word; the write is write-one-to-clear of DONE and OVR. -/
theorem statusFieldsAndWriteOneToClear : Obligations.StatusFieldsAndWriteOneToClear := by
  refine ⟨fun s => ?_, fun s v hl hb => ?_⟩
  · obtain ⟨hbusy, hdone, herr, hovr⟩ := statusWord_flags s
    exact ⟨hbusy, hdone, herr.trans (err_eq s), hovr, statusWord_fields s⟩
  · have hclear (b c : Bool) : (b && !c) = if c then false else b := by cases b <;> cases c <;> rfl
    refine (busWrite_offset hl hb .status v).trans ?_
    rw [State.writeReg, State.writeStatus, hclear, hclear]

theorem readReg_hwReset_ctrl (s : State) : readReg s.hwReset .ctrl = 0 := by simp [readReg]

/-- Settles O35: CTRL is the one bit IRQ_EN below 31 zeros. -/
theorem controlKeepsOnlyItsEnableBit : Obligations.ControlKeepsOnlyItsEnableBit := by
  intro s v hl
  refine ⟨?_, BitVec.extractLsb'_append_eq_left, fun hb => busWrite_offset hl hb .ctrl v,
    fun hb => busWrite_offset_busy hl hb .ctrl v, fun hi => ?_, fun hi => ?_, readReg_hwReset_ctrl s⟩
  · simp only [readReg, BitVec.getLsbD_append]
    simp
  · rw [State.irq, hi, Bool.true_and]
  · rw [State.irq, hi, Bool.false_and]

/-- Settles O38: the write is an issue, and CMD is one of the registers a read returns while BUSY = 1 too. -/
theorem writeToCmdIssues : Obligations.WriteToCmdIssues := by
  intro s w hl hb
  have hw : s.busWrite .w32 (s.cfg.base + 0x0C) w = s.issue w := busWrite_offset hl hb .cmd w
  exact ⟨hw, by rw [hw]; rfl, busRead_busWrite_offset hl hb (r := .cmd) rfl rfl, busRead_offset (s := s.hwReset) hl .cmd⟩

/-- Settles O39: such a write touches the block. -/
theorem writesWhileBusyOnlySetOverrun : Obligations.WritesWhileBusyOnlySetOverrun := by
  intro s wd a v _ hb hcovers
  rw [State.busWrite, if_pos ((touchesBlock_iff _ _ _).2 hcovers), if_pos hb]

/-- Settles O40: each is a register that stores the written word, and that a read returns. -/
theorem operandRegistersKeepWhatIsWritten : Obligations.OperandRegistersKeepWhatIsWritten := by
  intro s v hl hb
  refine ⟨busWrite_offset hl hb .arg0 v, busWrite_offset hl hb .tlen v, busWrite_offset hl hb .ioff v,
    busWrite_offset hl hb .ilen v, fun a ha => ?_⟩
  simp only [List.mem_cons, List.not_mem_nil, or_false] at ha
  rcases ha with rfl | rfl | rfl | rfl
  · exact busRead_busWrite_offset hl hb (r := .arg0) rfl rfl
  · exact busRead_busWrite_offset hl hb (r := .tlen) rfl rfl
  · exact busRead_busWrite_offset hl hb (r := .ioff) rfl rfl
  · exact busRead_busWrite_offset hl hb (r := .ilen) rfl rfl

theorem ofOffset_eq_some {n : Nat} {r : Reg} (h : Reg.ofOffset n = some r) : r.offset = n := by
  unfold Reg.ofOffset at h
  split at h <;> cases h <;> rfl

theorem offset_le (r : Reg) : r.offset ≤ 0x50 := by cases r <;> decide

/-- The offsets above ERR_POS are reserved (R40). -/
theorem ofOffset_reserved {n : Nat} (h : 0x50 < n) : Reg.ofOffset n = none := by
  cases hr : Reg.ofOffset n with
  | none => rfl
  | some r =>
    have hn := ofOffset_eq_some hr
    have hle := offset_le r
    omega

/-- ID and the registers from CRC_STATE on are read-only (R22). -/
theorem writeReg_readOnly {r : Reg} (h : r.offset = 0 ∨ 0x20 ≤ r.offset) (s : State) (v : Word) :
    s.writeReg r v = s := by
  cases r with
  | ctrl | status | cmd | arg0 | tlen | ioff | ilen => simp [Reg.offset] at h
  | _ => rfl

/-- Settles O41: an offset in the window is a read-only register's or, above ERR_POS, reserved. -/
theorem readOnlyAndReservedIgnoreWrites : Obligations.ReadOnlyAndReservedIgnoreWrites := by
  intro s k v hl hk hb
  refine ⟨fun hro => ?_, fun hres => ?_⟩
  · rw [busWrite_reg hl hk, hb, if_neg Bool.false_ne_true, State.hostWriteReg]
    cases hr : Reg.ofOffset (4 * k) with
    | none => rfl
    | some r =>
      have hn := ofOffset_eq_some hr
      exact writeReg_readOnly (by omega) s v
  · rw [busRead_reg hl hk, State.hostReadReg, ofOffset_reserved (by omega)]

/-! ## The engine's step (R26, R27) -/

theorem decodeCmd_encode (i : Instr) : decodeCmd (encode i) = .ok i := by cases i <;> rfl

theorem nextTurn_of_engine {s : State} (hb : s.busy = true) (ht : s.turns = [] ∨ ∃ rest, s.turns = .engine :: rest) :
    s.nextTurn = .engine := by
  rcases ht with ht | ⟨rest, ht⟩
  · rw [State.nextTurn, ht]; simp [hb]
  · rw [State.nextTurn, ht]

/-- With the engine to move, a step runs the command of CMD's word. -/
theorem step_of_decode {s : State} {i : Instr} (hb : s.busy = true) (ht : s.nextTurn = .engine)
    (hd : decodeCmd s.cmd = .ok i) : step s = exec i s.popTurn := by
  rw [step_of_engine hb ht, hd]

/-- Settles O4: the placed word is the one in CMD, and it decodes to the command it encodes. -/
theorem engineStepRunsTheDecodedCommand : Obligations.EngineStepRunsTheDecodedCommand := by
  refine ⟨fun s i hb hd ht => step_of_decode hb (nextTurn_of_engine hb ht) hd, fun s i => ?_⟩
  have hw : s.withFetchWord 32 (encode i).toNat = s.placeCommand (encode i) := by
    rw [State.withFetchWord, Nat.mod_eq_of_lt (encode i).isLt, BitVec.ofNat_toNat, BitVec.setWidth_eq]
  rw [hw]
  exact step_of_decode rfl rfl (decodeCmd_encode i)

/-! ## Reset values (R41) -/

theorem readReg_hwReset_status (s : State) : readReg s.hwReset .status = 0 := by
  simp [readReg, State.statusWord, State.err]

/-- TAG_FLAGS of a TAG of 0: every letter counts as uppercase (40_tag R124). -/
theorem readReg_hwReset_tagFlags (s : State) : readReg s.hwReset .tagFlags = 0x17 := by
  have h : tagFlags (Tag.unpack 0) = 0x17 := by decide
  exact h

theorem readReg_hwReset_found (s : State) : readReg s.hwReset .found = 0 := by simp [readReg]

theorem readReg_hwReset_crcResult (s : State) : readReg s.hwReset .crcResult = 0 := BitVec.xor_self

/-- Settles O8: the registers that are not stored by their lemmas, every other by its field. -/
theorem hardwareResetValues : Obligations.HardwareResetValues := by
  intro s
  exact ⟨rfl, readReg_hwReset_ctrl s, readReg_hwReset_status s, rfl, rfl, rfl, rfl, rfl, rfl, readReg_hwReset_crcResult s,
    rfl, readReg_hwReset_tagFlags s, rfl, rfl, rfl, rfl, rfl, readReg_hwReset_found s, rfl, rfl, rfl, rfl, rfl, rfl,
    fun _ => ⟨rfl, rfl⟩⟩

end Sys2Proof.Machine
end

section
/-! PROOFS of 20_memory: accesses to the register window that are no register access (R69), accesses to the buffers
byte by byte (R67, R70), and that a read has no side effect (R72). -/

namespace Sys2Proof.Machine

/-! ## Which bytes of an access are in which buffer (R62, R63) -/

theorem inIbuf_of_not_covers {c : Config} {wd : Width} {a x : Nat}
    (h : ¬ AccessCovers (c.base + c.ibufOffset) c.ibufSize wd a) (hlo : a ≤ x) (hhi : x < a + wd.bytes) :
    inIbuf c x = false := by
  rw [← Bool.not_eq_true, inIbuf_iff]
  exact fun hx => h ((accessCovers_iff _ _ _ _).2 ⟨x, hlo, hhi, hx⟩)

theorem inObuf_of_not_covers {c : Config} {wd : Width} {a x : Nat}
    (h : ¬ AccessCovers (c.base + c.obufOffset) c.obufSize wd a) (hlo : a ≤ x) (hhi : x < a + wd.bytes) :
    inObuf c x = false := by
  rw [← Bool.not_eq_true, inObuf_iff]
  exact fun hx => h ((accessCovers_iff _ _ _ _).2 ⟨x, hlo, hhi, hx⟩)

theorem inIbuf_of_not_covers_byte {c : Config} {x : Nat}
    (h : ¬ AccessCovers (c.base + c.ibufOffset) c.ibufSize .w8 x) : inIbuf c x = false :=
  inIbuf_of_not_covers h (Nat.le_refl x) (Nat.lt_succ_self x)

theorem inObuf_of_not_covers_byte {c : Config} {x : Nat}
    (h : ¬ AccessCovers (c.base + c.obufOffset) c.obufSize .w8 x) : inObuf c x = false :=
  inObuf_of_not_covers h (Nat.le_refl x) (Nat.lt_succ_self x)

/-! ## One byte of a read -/

theorem busReadByte_ibuf {s : State} {x : Nat} (hx : x < s.cfg.ibufSize) :
    s.busReadByte (s.cfg.base + s.cfg.ibufOffset + x) = s.ibufByte x := by
  have hin : inIbuf s.cfg (s.cfg.base + s.cfg.ibufOffset + x) = true := (inIbuf_iff _ _).2 (by omega)
  rw [State.busReadByte, if_pos hin, Nat.add_sub_cancel_left]

theorem busReadByte_obuf {s : State} (hl : s.cfg.legal = true) {x : Nat} (hx : x < s.cfg.obufSize) :
    s.busReadByte (s.cfg.base + s.cfg.obufOffset + x) =
      if s.busy = true then Config.busyByte s.draws x else s.obufByte x := by
  have hin : inObuf s.cfg (s.cfg.base + s.cfg.obufOffset + x) = true := (inObuf_iff _ _).2 (by omega)
  have hout : ¬ inIbuf s.cfg (s.cfg.base + s.cfg.obufOffset + x) = true :=
    fun h => (windows_disjoint hl _).1 ⟨h, hin⟩
  rw [State.busReadByte, if_neg hout, if_pos hin, Nat.add_sub_cancel_left]

theorem busReadByte_outside {s : State} {a : Nat} (hi : inIbuf s.cfg a = false) (ho : inObuf s.cfg a = false) :
    s.busReadByte a = 0 := by
  rw [State.busReadByte, hi, ho, if_neg Bool.false_ne_true, if_neg Bool.false_ne_true]

/-! ## The bytes of a bus value -/

theorem leWord_eq_zero {bs : List Byte} (h : ∀ b ∈ bs, b = 0) : leWord bs = 0 := by
  induction bs with
  | nil => rfl
  | cons b bs ih =>
    obtain ⟨hb, hbs⟩ := List.forall_mem_cons.1 h
    rw [leWord, hb, ih hbs]
    rfl

theorem leBytes_getD {n i : Nat} (h : i < n) (v : Word) : (leBytes n v).getD i 0 = v.extractLsb' (8 * i) 8 := by
  simp [leBytes, h]

/-! ## An access that is no register access -/

theorem isRegAccess_false_of_malformed {c : Config} {wd : Width} {a : Nat} (h : wd ≠ .w32 ∨ a % 4 ≠ 0) :
    isRegAccess c wd a = false := by
  rcases h with h | h <;> simp [isRegAccess, h]

theorem busWrite_eq_busWriteBytes {s : State} {wd : Width} {a : Nat} (ht : touchesBlock s.cfg wd a = true)
    (hr : isRegAccess s.cfg wd a = false) (hb : s.busy = false) (v : Word) :
    s.busWrite wd a v = s.busWriteBytes a (leBytes wd.bytes v) := by
  rw [State.busWrite, if_pos ht, hb, if_neg Bool.false_ne_true, hr, if_neg Bool.false_ne_true]

theorem busWriteBytes_ibuf_of_not_covers {s : State} {wd : Width} {a : Nat}
    (h : ¬ AccessCovers (s.cfg.base + s.cfg.ibufOffset) s.cfg.ibufSize wd a) (v : Word) :
    (s.busWriteBytes a (leBytes wd.bytes v)).ibuf = s.ibuf :=
  busWriteBytes_ibuf _ _ _ fun _ hlo hhi => inIbuf_of_not_covers h hlo (by rwa [leBytes_length] at hhi)

theorem busWriteBytes_obuf_of_not_covers {s : State} {wd : Width} {a : Nat}
    (h : ¬ AccessCovers (s.cfg.base + s.cfg.obufOffset) s.cfg.obufSize wd a) (v : Word) :
    (s.busWriteBytes a (leBytes wd.bytes v)).obuf = s.obuf :=
  busWriteBytes_obuf _ _ _ fun _ hlo hhi => inObuf_of_not_covers h hlo (by rwa [leBytes_length] at hhi)

/-- Settles O42: every byte of the access is outside the buffers, so it reads 0 and is not written. -/
theorem malformedRegisterAccessHasNoEffect : Obligations.MalformedRegisterAccessHasNoEffect := by
  intro s wd a v hl hcovers hibuf hobuf hmalformed
  have hr := isRegAccess_false_of_malformed (c := s.cfg) hmalformed
  have ht : touchesBlock s.cfg wd a = true := (touchesBlock_iff _ _ _).2 (.inl hcovers)
  refine ⟨?_, ?_⟩
  · rw [State.busRead, hr, if_neg Bool.false_ne_true, if_pos ht]
    refine leWord_eq_zero (List.forall_mem_map.2 fun x hx => ?_)
    obtain ⟨hlo, hhi⟩ := List.mem_range'_1.1 hx
    exact busReadByte_outside (inIbuf_of_not_covers hibuf hlo hhi) (inObuf_of_not_covers hobuf hlo hhi)
  · by_cases hb : s.busy = true
    · rw [if_pos hb, writesWhileBusyOnlySetOverrun s wd a v hl hb (.inl hcovers)]
    · rw [if_neg hb, busWrite_eq_busWriteBytes ht hr (Bool.of_not_eq_true hb), busWriteBytes_frame,
        busWriteBytes_ibuf_of_not_covers hibuf, busWriteBytes_obuf_of_not_covers hobuf]

/-- A byte of an access outside both buffers, or beyond its width, reads 0. -/
theorem busRead_byte_outside {s : State} {wd : Width} {a i : Nat} (hr : isRegAccess s.cfg wd a = false)
    (ht : touchesBlock s.cfg wd a = true)
    (h : i < wd.bytes → inIbuf s.cfg (a + i) = false ∧ inObuf s.cfg (a + i) = false) :
    (s.busRead wd a).extractLsb' (8 * i) 8 = 0 := by
  rw [busRead_byte hr ht]
  split
  · rename_i hi
    exact busReadByte_outside (h hi).1 (h hi).2
  · rfl

/-- Settles O43: an access that covers an IBUF byte is no register access, so it acts byte by byte. -/
theorem inputBufferAccessIsLittleEndian : Obligations.InputBufferAccessIsLittleEndian := by
  intro s wd a v hl lo hcovers
  obtain ⟨_, hoff, _⟩ := legal_facts hl
  have hr := not_isRegAccess_of_covers hl hoff hcovers
  have ht : touchesBlock s.cfg wd a = true := (touchesBlock_iff _ _ _).2 (.inr (.inl hcovers))
  refine ⟨fun i hi x hx hax => ?_, fun i h => ?_, fun hb => ?_⟩
  · rw [busRead_byte hr ht, if_pos hi, hax, busReadByte_ibuf hx]
  · exact busRead_byte_outside hr ht fun hi =>
      ⟨inIbuf_of_not_covers_byte (h hi).1, inObuf_of_not_covers_byte (h hi).2⟩
  · rw [busWrite_eq_busWriteBytes ht hr hb]
    refine ⟨busWriteBytes_frame _ _ _, fun y => ?_, fun hobuf => busWriteBytes_obuf_of_not_covers hobuf v⟩
    rw [busWriteBytes_ibufByte, leBytes_length]
    exact if_ctx_congr Iff.rfl (fun hy => leBytes_getD (by omega) v) fun _ => rfl

/-- Settles O44: the same argument for OBUF, whose bytes read as free values while BUSY = 1. -/
theorem outputBufferAccessIsLittleEndian : Obligations.OutputBufferAccessIsLittleEndian := by
  intro s wd a v hl lo hcovers
  obtain ⟨_, _, hoff, _⟩ := legal_facts hl
  have hr := not_isRegAccess_of_covers hl hoff hcovers
  have ht : touchesBlock s.cfg wd a = true := (touchesBlock_iff _ _ _).2 (.inr (.inr hcovers))
  refine ⟨fun i hi x hx hax => ?_, fun i h => ?_, fun hb => ?_⟩
  · rw [busRead_byte hr ht, if_pos hi, hax, busReadByte_obuf hl hx]
  · exact busRead_byte_outside hr ht fun hi =>
      ⟨inIbuf_of_not_covers_byte (h hi).2, inObuf_of_not_covers_byte (h hi).1⟩
  · rw [busWrite_eq_busWriteBytes ht hr hb]
    refine ⟨busWriteBytes_frame _ _ _, fun y => ?_, fun hibuf => busWriteBytes_ibuf_of_not_covers hibuf v⟩
    rw [busWriteBytes_obufByte hl, leBytes_length]
    exact if_ctx_congr Iff.rfl (fun hy => leBytes_getD (by omega) v) fun _ => rfl

/-! ## A read has no side effect (R72) -/

/-- `s` with other data of the host: the transactions it has left, the record of its reads and their count. -/
def State.withHostData (s : State) (host : List HostOp) (reads : List Word) (draws : Nat) : State :=
  { s with host := host, reads := reads, draws := draws }

section
variable {s : State} (hb : s.busy = false) (host : List HostOp) (reads : List Word) (draws : Nat)
include hb

theorem hostReadReg_withHostData (n : Nat) : (s.withHostData host reads draws).hostReadReg n = s.hostReadReg n := by
  have hb' : (s.withHostData host reads draws).busy = false := hb
  rw [State.hostReadReg, State.hostReadReg, hb, hb']
  cases Reg.ofOffset n with
  | none => rfl
  | some r => cases r <;> rfl

theorem busReadByte_withHostData (x : Nat) :
    (s.withHostData host reads draws).busReadByte x = s.busReadByte x := by
  have hb' : (s.withHostData host reads draws).busy = false := hb
  rw [State.busReadByte, State.busReadByte, hb, hb']
  rfl

/-- An idle read of the block depends on nothing that a read changes. -/
theorem busRead_withHostData {wd : Width} {a : Nat} (ht : touchesBlock s.cfg wd a = true) :
    (s.withHostData host reads draws).busRead wd a = s.busRead wd a := by
  have hcfg : (s.withHostData host reads draws).cfg = s.cfg := rfl
  have hbytes := funext (busReadByte_withHostData hb host reads draws)
  rw [State.busRead, State.busRead, hcfg, hostReadReg_withHostData hb, hbytes, if_pos ht, if_pos ht]

end

/-- Settles O45: a host read turn changes the host's data only, and an idle read does not depend on it. -/
theorem readsHaveNoSideEffect : Obligations.ReadsHaveNoSideEffect := by
  intro s wd a rest hs
  have hturn : s.hostTurn = s.withHostData rest (s.busRead wd a :: s.reads) (s.draws + 1) := by
    rw [State.hostTurn, hs]
    rfl
  exact ⟨hturn, fun hb ht => by rw [hturn, busRead_withHostData hb _ _ _ ht]⟩

end Sys2Proof.Machine
end

section
/-! PROOFS of 30_encoding: decoder and encoder (R101, R92, R90), the illegal words (R93), the operands a command does not
read (R91), and host programs (R104 to R106). -/

namespace Sys2Proof.Machine

/-! ## The two fields of a command word (R90) -/

theorem opc_toNat (w : Word) : (w.extractLsb' 0 8).toNat = w.toNat % 256 := by
  rw [BitVec.extractLsb'_toNat, Nat.shiftRight_zero]

theorem mbz_toNat (w : Word) : (w.extractLsb' 8 24).toNat = w.toNat / 256 := by
  have hw := w.isLt
  rw [BitVec.extractLsb'_toNat, Nat.shiftRight_eq_div_pow, Nat.mod_eq_of_lt (by omega)]

theorem mbz_eq_zero_iff (w : Word) : w.extractLsb' 8 24 = 0 ↔ w.toNat / 256 = 0 := by
  rw [← mbz_toNat, BitVec.toNat_eq]
  rfl

/-- A word is its field MBZ over its field OPC. -/
theorem mbz_append_opc (w : Word) : w.extractLsb' 8 24 ++ w.extractLsb' 0 8 = w := by
  rw [BitVec.extractLsb'_append_extractLsb'_eq_extractLsb' (by rfl)]
  exact BitVec.extractLsb'_eq_self

/-! ## The decoder (R101) -/

theorem decodeOpcode_opcode (i : Instr) : decodeOpcode i.opcode = some i := by cases i <;> rfl

/-- Every arm of the decoder names the command whose OPC it matches. -/
theorem decodeOpcode_eq_some_iff {opc : BitVec 8} {i : Instr} : decodeOpcode opc = some i ↔ opc = i.opcode := by
  refine ⟨fun h => ?_, fun h => h ▸ decodeOpcode_opcode i⟩
  unfold decodeOpcode at h
  split at h <;> cases h <;> exact BitVec.eq_of_toNat_eq ‹_›

/-- The unassigned OPCs are the four gaps of the opcode map (R93). -/
theorem decodeOpcode_eq_none_iff {opc : BitVec 8} :
    decodeOpcode opc = none ↔
      (0x05 ≤ opc.toNat ∧ opc.toNat ≤ 0x0F) ∨ (0x12 ≤ opc.toNat ∧ opc.toNat ≤ 0x1F) ∨
        (0x22 ≤ opc.toNat ∧ opc.toNat ≤ 0x2F) ∨ (0x37 ≤ opc.toNat ∧ opc.toNat ≤ 0xFE) := by
  have hlt := opc.isLt
  unfold decodeOpcode
  split <;> simp only [reduceCtorEq, true_iff, false_iff, imp_false] at * <;> omega

/-- Everything the decoder can answer. -/
theorem decodeCmd_cases (w : Word) :
    (w.extractLsb' 8 24 ≠ 0 ∧ decodeCmd w = .error .mbzNotZero) ∨
    (w.extractLsb' 8 24 = 0 ∧ decodeOpcode (w.extractLsb' 0 8) = none ∧ decodeCmd w = .error .unassignedOpcode) ∨
    (w.extractLsb' 8 24 = 0 ∧ ∃ i, decodeOpcode (w.extractLsb' 0 8) = some i ∧ decodeCmd w = .ok i) := by
  by_cases hmbz : w.extractLsb' 8 24 = 0
  · rw [decodeCmd, if_neg (not_not.2 hmbz)]
    cases hopc : decodeOpcode (w.extractLsb' 0 8) with
    | none => exact .inr (.inl ⟨hmbz, rfl, rfl⟩)
    | some i => exact .inr (.inr ⟨hmbz, i, rfl, rfl⟩)
  · exact .inl ⟨hmbz, if_pos hmbz⟩

/-- A command has one word: a word with MBZ zero is determined by its OPC. -/
theorem decodeCmd_eq_ok_iff (w : Word) (i : Instr) : decodeCmd w = .ok i ↔ w = encode i := by
  refine ⟨fun h => ?_, fun h => h ▸ decodeCmd_encode i⟩
  rcases decodeCmd_cases w with ⟨_, e⟩ | ⟨_, _, e⟩ | ⟨hmbz, j, hopc, e⟩ <;> cases h.symm.trans e
  rw [← mbz_append_opc w, hmbz, decodeOpcode_eq_some_iff.1 hopc]
  rfl

/-- Settles O2: a decoded word has MBZ zero and its command's OPC, which is how the encoder builds it. -/
theorem decodeExactlyTheEncodedWord : Obligations.DecodeExactlyTheEncodedWord :=
  ⟨decodeCmd_eq_ok_iff, fun i => by cases i <;> rfl⟩

/-- Settles O1: each word of the map is its command's encoding. -/
theorem opcodeMapWordsDecode : Obligations.OpcodeMapWordsDecode :=
  ⟨decodeCmd_encode .nop, decodeCmd_encode .crcInit, decodeCmd_encode .crcByte, decodeCmd_encode .crcBuf,
    decodeCmd_encode .crcLoad, decodeCmd_encode .tagBytes, decodeCmd_encode .tagText, decodeCmd_encode .chunkEncode,
    decodeCmd_encode .chunkDecode, decodeCmd_encode .pngParse, decodeCmd_encode .pngSerialize,
    decodeCmd_encode .pngClear, decodeCmd_encode .pngAppend, decodeCmd_encode .pngRemove, decodeCmd_encode .pngFind,
    decodeCmd_encode .chunkRead, decodeCmd_encode .softReset⟩

/-! ## Illegal words (R93) -/

theorem illegalWord_iff (w : Word) :
    IllegalWord w ↔ w.extractLsb' 8 24 ≠ 0 ∨ decodeOpcode (w.extractLsb' 0 8) = none := by
  rw [decodeOpcode_eq_none_iff, ne_eq, mbz_eq_zero_iff, opc_toNat, IllegalWord]

theorem decodeCmd_error_iff (w : Word) : (∃ r, decodeCmd w = .error r) ↔ IllegalWord w := by
  rw [illegalWord_iff]
  rcases decodeCmd_cases w with ⟨hmbz, e⟩ | ⟨_, hopc, e⟩ | ⟨hmbz, i, hopc, e⟩ <;> rw [e]
  · exact iff_of_true ⟨_, rfl⟩ (.inl hmbz)
  · exact iff_of_true ⟨_, rfl⟩ (.inr hopc)
  · exact iff_of_false nofun (not_or.2 ⟨not_not.2 hmbz, by rw [hopc]; nofun⟩)

/-- The engine's step over a word the decoder refuses (44_control R232). -/
theorem engineTurn_of_error {s : State} {r : DecodeReject} (hb : s.busy = true) (hd : decodeCmd s.cmd = .error r) :
    engineTurn s = completeIllegal s s.cmd := by
  simp only [engineTurn, State.pending, hb, if_true, hd]

/-- Settles O3: a refusal by the decoder's two tests, field by field; a write to CMD issues any word; a refused word
completes with its report. -/
theorem illegalWordsIssueAndCompleteWithReport : Obligations.IllegalWordsIssueAndCompleteWithReport := by
  refine ⟨decodeCmd_error_iff, fun _ _ _ _ => rfl, fun s hw hb => ?_⟩
  obtain ⟨r, hr⟩ := (decodeCmd_error_iff s.cmd).2 hw
  exact engineTurn_of_error hb hr

/-! ## Operands a command does not read (R91) -/

/-- The state with the four operand registers replaced. -/
def State.withOperands (s : State) (arg0 tlen ioff ilen : Word) : State :=
  { s with arg0 := arg0, tlen := tlen, ioff := ioff, ilen := ilen }

/-- A command but SOFT_RESET does the same over other operands, and keeps them, when those it reads are the same. -/
theorem exec_withOperands {i : Instr} (hi : i ≠ .softReset) (s : State) {a b c d : Word}
    (harg : i ∉ [Instr.nop, .crcInit, .crcBuf, .chunkDecode, .pngParse, .pngSerialize, .pngClear] → a = s.arg0)
    (htlen : i ∈ [Instr.tagText, .pngRemove, .pngFind] → b = s.tlen)
    (hrange : i ∈ [Instr.crcBuf, .chunkEncode, .chunkDecode, .pngParse, .pngAppend] → c = s.ioff ∧ d = s.ilen) :
    ∃ t, exec i s = .next t ∧ exec i (s.withOperands a b c d) = .next (t.withOperands a b c d) := by
  have bind := @complete_bind_map (State.withOperands · a b c d) s fun _ => rfl
  cases i with
  | softReset => exact absurd rfl hi
  | nop | crcInit | pngClear => exact ⟨_, rfl, rfl⟩
  | crcByte | crcLoad =>
    obtain rfl := harg (by decide)
    exact ⟨_, rfl, rfl⟩
  | crcBuf =>
    obtain ⟨rfl, rfl⟩ := hrange (by decide)
    exact ⟨_, rfl, congrArg _ (bind (inputRange s) fun _ => rfl)⟩
  | tagBytes =>
    obtain rfl := harg (by decide)
    exact ⟨_, rfl, congrArg _ (bind (tagConstruct (tagOperand s)) fun _ => rfl)⟩
  | tagText =>
    obtain rfl := harg (by decide)
    obtain rfl := htlen (by decide)
    exact ⟨_, rfl, congrArg _ (bind (tagTextOperand s) fun t => bind (tagConstruct t) fun _ => rfl)⟩
  | chunkEncode =>
    obtain rfl := harg (by decide)
    obtain ⟨rfl, rfl⟩ := hrange (by decide)
    exact ⟨_, rfl, congrArg _ (bind (inputRange s) fun p =>
      bind (tagConstruct (tagOperand s)) fun t => bind (outputFits s _) fun _ => rfl)⟩
  | chunkDecode =>
    obtain ⟨rfl, rfl⟩ := hrange (by decide)
    exact ⟨_, rfl, congrArg _ (bind (inputRange s) fun bs => bind (chunkDecode s.cfg.crcImpl bs) fun _ => rfl)⟩
  | pngParse =>
    obtain ⟨rfl, rfl⟩ := hrange (by decide)
    exact ⟨_, rfl, congrArg _ (bind (inputRange s) fun bs => bind (containerParse s.cfg bs) fun _ => rfl)⟩
  | pngSerialize => exact ⟨_, rfl, congrArg _ (bind (outputFits s _) fun _ => rfl)⟩
  | pngAppend =>
    obtain rfl := harg (by decide)
    obtain ⟨rfl, rfl⟩ := hrange (by decide)
    exact ⟨_, rfl, congrArg _ (bind (inputRange s) fun p =>
      bind (tagConstruct (tagOperand s)) fun t => bind (appendFits s p) fun _ => rfl)⟩
  | pngRemove =>
    obtain rfl := harg (by decide)
    obtain rfl := htlen (by decide)
    exact ⟨_, rfl, congrArg _ (bind (tagTextOperand s) fun t =>
      bind (tagConstruct t) fun t => bind (removeIndex s t) fun _ => rfl)⟩
  | pngFind =>
    obtain rfl := harg (by decide)
    obtain rfl := htlen (by decide)
    refine ⟨_, rfl, ?_⟩
    have hf : findIndex (s.withOperands s.arg0 s.tlen c d) = findIndex s := rfl
    rw [exec, execPngFind, hf]
    cases findIndex s <;> rfl
  | chunkRead =>
    obtain rfl := harg (by decide)
    exact ⟨_, rfl, congrArg _ (bind (storedChunk s) fun c => bind (outputFits s _) fun _ => rfl)⟩

section
variable {i : Instr} (hi : i ≠ .softReset) {s t : State} (h : exec i s = .next t)
include hi h

/-- The same of the state the command is known to answer. -/
theorem exec_withOperands_of_next {a b c d : Word}
    (harg : i ∉ [Instr.nop, .crcInit, .crcBuf, .chunkDecode, .pngParse, .pngSerialize, .pngClear] → a = s.arg0)
    (htlen : i ∈ [Instr.tagText, .pngRemove, .pngFind] → b = s.tlen)
    (hrange : i ∈ [Instr.crcBuf, .chunkEncode, .chunkDecode, .pngParse, .pngAppend] → c = s.ioff ∧ d = s.ilen) :
    exec i (s.withOperands a b c d) = .next (t.withOperands a b c d) := by
  obtain ⟨u, hu, hother⟩ := exec_withOperands hi s harg htlen hrange
  cases h.symm.trans hu
  exact hother

/-- A command but SOFT_RESET keeps the operand registers. -/
theorem exec_operands : t = t.withOperands s.arg0 s.tlen s.ioff s.ilen := by
  injection h.symm.trans (exec_withOperands_of_next hi h (fun _ => rfl) (fun _ => rfl) fun _ => ⟨rfl, rfl⟩)

end

/-- Settles O33: another value in one register is other operands that agree on those the command reads, and the three
registers left alone are kept. SOFT_RESET resets all four. -/
theorem unreadOperandsDoNotMatter : Obligations.UnreadOperandsDoNotMatter := by
  refine ⟨fun i s t v hi h => ?_, fun _ _ _ _ _ => rfl⟩
  have hother := @exec_withOperands_of_next i hi s t h
  rw [exec_operands hi h]
  refine ⟨fun harg => ?_, fun htlen => ?_, fun hrange => ⟨?_, ?_⟩⟩
  · exact hother (absurd harg) (fun _ => rfl) fun _ => ⟨rfl, rfl⟩
  · exact hother (fun _ => rfl) (absurd · htlen) fun _ => ⟨rfl, rfl⟩
  · exact hother (fun _ => rfl) (fun _ => rfl) (absurd · hrange)
  · exact hother (fun _ => rfl) (fun _ => rfl) (absurd · hrange)

/-! ## Host programs (R104 to R106) -/

/-- The text length in TLEN is exact for a length that is a u32 (R95). -/
theorem textLength_of_lt {s : List Byte} (h : s.length < 2 ^ 32) : textLength s = BitVec.ofNat 32 s.length := by
  rw [textLength, if_pos h, count]

@[simp] theorem encodeProgram_append (c : Config) (p q : List Stmt) :
    encodeProgram c (p ++ q) = encodeProgram c p ++ encodeProgram c q := List.flatMap_append

@[simp] theorem encodeProgram_singleton (c : Config) (x : Stmt) : encodeProgram c [x] = x.encode c :=
  List.flatMap_singleton _ _

/-- STATUS is read through the bus as it is, even while BUSY = 1 (70_reset R282). -/
theorem busRead_status {s : State} (h : s.cfg.legal = true) :
    s.busRead .w32 (s.cfg.base + Reg.status.offset) = readReg s .status := by
  simp [busRead_offset h, Reg.readableBusy]

/-- One poll of `wait`: the entry stays while STATUS bit 0 reads 1 (R104). -/
theorem hostTurn_wait {s : State} {rest : List HostOp} (h : s.cfg.legal = true) (hs : s.host = .wait :: rest) :
    s.hostTurn =
      { s with
        host := if (readReg s .status).getLsbD 0 then s.host else rest,
        reads := readReg s .status :: s.reads, draws := s.draws + 1 } := by
  rw [State.hostTurn, hs]
  simp only [busRead_status h, ← hs]
  cases (readReg s .status).getLsbD 0 <;> rfl

/-- Settles O59: every row by the encoding of its statement; the bytes of a `wb` by `wbTxns_eq`, the word of a tag text by
its length, and `wait` by one poll. -/
theorem hostStatementsAreTheirTransactions : Obligations.HostStatementsAreTheirTransactions := by
  refine ⟨fun c => ?_, fun _ _ => hostTurn_wait⟩
  have hwb (x : Stmt) {a : Nat} {bs : List Byte} (hx : x.encode c = wbTxns a bs) :=
    (encodeProgram_singleton c x).trans (hx.trans (wbTxns_eq a bs))
  exact ⟨encodeProgram_append c, fun _ _ => rfl, fun _ => rfl, fun a bs => hwb (.wbIbuf a bs) rfl, fun _ _ => rfl,
    fun _ => rfl, fun a bs => hwb (.wbObuf a bs) rfl, fun _ => rfl, rfl, fun _ => rfl, fun _ _ => rfl, fun _ => rfl,
    fun s => ⟨textLength s, textLength_of_lt, rfl⟩, fun _ _ => rfl, rfl, rfl, rfl⟩

end Sys2Proof.Machine
end

section
/-! PROOFS of 40_tag: the tag commands store four letters or report the lowest byte that is none (R121, R127, R128), and
TAG_FLAGS is made of the case bits of TAG (R122 to R124; 10_state R31). -/

namespace Sys2Proof.Machine

/-! ## TAG_BYTES and TAG_TEXT (R127, R128) -/

/-- A tag has one lowest byte that is no letter: below either of two such bytes there are letters only. -/
theorem failsAt_unique {t : Tag} {i j : Nat} (hi : t.FailsAt i) (hj : t.FailsAt j) : i = j := by
  obtain ⟨_, hfi, hli⟩ := hi
  obtain ⟨_, hfj, hlj⟩ := hj
  rcases Nat.lt_trichotomy i j with h | h | h
  · exact absurd (hlj i h) (Bool.eq_false_iff.1 hfi)
  · exact h
  · exact absurd (hli j h) (Bool.eq_false_iff.1 hfj)

section
variable {s : State}

theorem exec_tagBytes_of_letters (h : (Tag.unpack s.arg0).letters = true) :
    exec .tagBytes s = .next { s with tag := s.arg0 }.completed := by
  rcases exec_tagBytes_cases s with ⟨i, hi, _⟩ | ⟨_, e⟩
  · exact absurd hi (not_failsAt_of_letters h i)
  · exact e

theorem exec_tagBytes_of_failsAt {i : Nat} (h : (Tag.unpack s.arg0).FailsAt i) :
    exec .tagBytes s = .next (s.failedWith 1 s.arg0 (BitVec.ofNat 32 i) 0) := by
  rcases exec_tagBytes_cases s with ⟨j, hj, e⟩ | ⟨hl, _⟩
  · rw [failsAt_unique h hj]
    exact e
  · exact absurd h (not_failsAt_of_letters hl i)

/-- TAG_TEXT over a text of four bytes is TAG_BYTES (R128). -/
theorem exec_tagText_of_length (h : s.tlen = 4) : exec .tagText s = exec .tagBytes s := by
  simp [exec, execTagText, execTagBytes, tagOperand, tagTextOperand_of_length h]

theorem exec_tagText_of_not_length (h : s.tlen ≠ 4) :
    exec .tagText s = .next (s.failedWith 1 s.arg0 0xFFFFFFFF 0) := by
  rcases exec_tagText_cases s with ⟨_, e⟩ | ⟨_, h4, _⟩ | ⟨h4, _⟩
  · exact e
  · exact absurd h4 h
  · exact absurd h4 h

end

/-- Settles O15: four letters are stored, the one lowest failing byte is reported, and every tag has one or the other. -/
theorem tagBytesValidatesAndStores : Obligations.TagBytesValidatesAndStores :=
  ⟨decodeCmd_encode .tagBytes, fun s =>
    ⟨exec_tagBytes_of_letters, fun _ => exec_tagBytes_of_failsAt, letters_or_failsAt (Tag.unpack s.arg0)⟩⟩

/-- Settles O16: a wrong length is reported before the letters are looked at; the right one leaves TAG_BYTES. -/
theorem tagTextTestsLengthThenLetters : Obligations.TagTextTestsLengthThenLetters :=
  ⟨decodeCmd_encode .tagText, fun _ =>
    ⟨exec_tagText_of_not_length, fun h hl => (exec_tagText_of_length h).trans (exec_tagBytes_of_letters hl),
      fun _ h hf => (exec_tagText_of_length h).trans (exec_tagBytes_of_failsAt hf)⟩⟩

/-! ## TAG_FLAGS (R122 to R124) -/

/-- A byte is uppercase in the sense of R122 when its bit 5 is clear. -/
theorem caseBit_eq_zero (b : Byte) : ((b &&& 0x20) == 0) = !b.getLsbD 5 := by
  have hmask : (0x20 : Byte) = BitVec.twoPow 8 5 := rfl
  rw [hmask, BitVec.and_twoPow]
  cases b.getLsbD 5 <;> rfl

/-- The five flags of TAG_FLAGS, by position (R124). -/
theorem tagFlags_bits (t : Tag) :
    (tagFlags t).getLsbD 0 = t.isCritical ∧ (tagFlags t).getLsbD 1 = t.isPublic ∧
    (tagFlags t).getLsbD 2 = t.isReservedBitValid ∧ (tagFlags t).getLsbD 3 = t.isSafeToCopy ∧
    (tagFlags t).getLsbD 4 = t.isValid := by
  simp only [tagFlags, BitVec.getLsbD_append]
  simp

/-- The bits of TAG_FLAGS above its flags are 0 (R124). -/
theorem tagFlags_above_flags (t : Tag) : (tagFlags t).extractLsb' 5 27 = 0 := by
  rw [tagFlags, BitVec.extractLsb'_append_eq_of_le (by decide), BitVec.extractLsb'_append_eq_of_le (by decide),
    BitVec.extractLsb'_append_eq_of_le (by decide), BitVec.extractLsb'_append_eq_of_le (by decide)]
  exact BitVec.extractLsb'_append_eq_left

/-- The properties of a packed tag are its case bits: bits 29, 21, 13 and 5 of the word (R122, R94). -/
theorem unpack_properties (w : Word) :
    (Tag.unpack w).isCritical = !w.getLsbD 29 ∧ (Tag.unpack w).isPublic = !w.getLsbD 21 ∧
    (Tag.unpack w).isReservedBitValid = !w.getLsbD 13 ∧ (Tag.unpack w).isSafeToCopy = w.getLsbD 5 := by
  simp only [Tag.isCritical, Tag.isPublic, Tag.isReservedBitValid, Tag.isSafeToCopy, bne, caseBit_eq_zero]
  simp [Tag.unpack]

/-- Settles O37: each flag by its position and its case bit; VALID is RESERVED_VALID (R123). -/
theorem tagFlagsBits : Obligations.TagFlagsBits := by
  intro s
  obtain ⟨h0, h1, h2, h3, h4⟩ := tagFlags_bits (Tag.unpack s.tag)
  obtain ⟨hcritical, hpublic, hreserved, hsafe⟩ := unpack_properties s.tag
  exact ⟨h0.trans hcritical, h1.trans hpublic, h2.trans hreserved, h3.trans hsafe, h4.trans h2.symm,
    tagFlags_above_flags _⟩

end Sys2Proof.Machine
end

section
/-! PROOFS of 41_crc: the table and its loop (R141, R150), the two datapath forms (R144), the streaming law (R145), the CRC
commands (R146 to R149), and the frame of every command. -/

namespace Sys2Proof.Machine

/-! ## The CRC function (R141, R144, R150) -/

/-- Settles O48: one byte by the linearity of the shift, a run byte by byte. -/
theorem bitSerialStepEqualsTableStep : Obligations.BitSerialStepEqualsTableStep :=
  ⟨crcStepBits_eq_crcStepTable, crcRun_impl⟩

/-- Settles O47: the listing entry by entry against its loop, the landmarks by lookup, and the source's checksum by
running the table over its 46 bytes. -/
theorem crcTableIsItsLoopAndGivesTheSourceChecksum : Obligations.CrcTableIsItsLoopAndGivesTheSourceChecksum :=
  ⟨crcTableAt_eq_crcTableLoop, rfl, rfl, rfl, rfl, by decide +kernel⟩

/-! ## The streaming law (R145) -/

theorem crcRun_append (impl : CrcImpl) (c : Word) (s u : List Byte) :
    crcRun impl c (s ++ u) = crcRun impl (crcRun impl c s) u := by
  induction s generalizing c with
  | nil => rfl
  | cons b s ih => exact ih (crcStep impl c b)

theorem crc32_nil (impl : CrcImpl) : crc32 impl [] = 0 := BitVec.xor_self

/-- A zero byte leaves the CRC value 0, because T[0] = 0. -/
theorem crcStep_zero (impl : CrcImpl) : crcStep impl 0 0 = 0 := by cases impl <;> rfl

theorem crcRun_zeros (impl : CrcImpl) {s : List Byte} (h : ∀ b ∈ s, b = 0) : crcRun impl 0 s = 0 := by
  induction s with
  | nil => rfl
  | cons b s ih =>
    obtain ⟨rfl, hs⟩ := List.forall_mem_cons.1 h
    rw [crcRun, crcStep_zero, ih hs]

/-! ## CRC_INIT, CRC_BYTE and CRC_LOAD (R146, R147, R149) -/

/-- CRC_RESULT of CRC_STATE = 0xFFFFFFFF is 0 (10_state R29). -/
theorem readReg_crcResult_of_ones {s : State} (h : s.crcState = 0xFFFFFFFF) : readReg s .crcResult = 0 := by
  rw [readReg, h]
  exact BitVec.xor_self

/-- Settles O12: both commands are one write of CRC_STATE and a completion. -/
theorem crcInitAndLoadSetTheCrcRegister : Obligations.CrcInitAndLoadSetTheCrcRegister :=
  ⟨decodeCmd_encode .crcInit, decodeCmd_encode .crcLoad, fun _ => ⟨rfl, readReg_crcResult_of_ones rfl, rfl⟩⟩

/-- The byte operand as a word is ARG0 with bits 31:8 masked out (30_encoding R96). -/
theorem byteOperand_setWidth (s : State) : (byteOperand s).setWidth 32 = s.arg0 &&& 0xFF := by
  apply BitVec.eq_of_toNat_eq
  rw [byteOperand, BitVec.toNat_setWidth_of_le (by decide), opc_toNat, BitVec.toNat_and]
  exact (Nat.and_two_pow_sub_one_eq_mod _ 8).symm

/-- Settles O13: the configured step is the table step, over the masked operand. -/
theorem crcByteFeedsOneByteByTheTable : Obligations.CrcByteFeedsOneByteByTheTable := by
  refine ⟨decodeCmd_encode .crcByte, fun s => ?_⟩
  rw [exec, execCrcByte, crcStep_impl _ .table, crcStep, crcStepTable, byteOperand_setWidth]
  rfl

/-! ## CRC_BUF (R148) -/

section
variable {s : State}

theorem exec_crcBuf_of_rangeOk (h : s.RangeOk) :
    exec .crcBuf s = .next { s with crcState := crcRun s.cfg.crcImpl s.crcState s.input }.completed := by
  rcases exec_crcBuf_cases s with ⟨hn, _⟩ | ⟨_, e⟩
  · exact absurd h hn
  · exact e

theorem exec_crcBuf_of_not_rangeOk (h : ¬ s.RangeOk) :
    exec .crcBuf s = .next (s.failedWith 9 s.ioff s.ilen 0) := by
  rcases exec_crcBuf_cases s with ⟨_, e⟩ | ⟨hr, _⟩
  · exact e
  · exact absurd hr h

theorem input_of_ilen_zero (h : s.ilen = 0) : s.input = [] :=
  List.eq_nil_of_length_eq_zero (by rw [input_length, h]; rfl)

theorem rangeOk_of_ilen_zero (hoff : s.ioff.toNat ≤ s.cfg.ibufSize) (h : s.ilen = 0) : s.RangeOk := by
  rw [State.RangeOk, h]
  exact hoff

end

/-- Settles O14: the two answers of the range check; an empty range feeds no byte. -/
theorem crcBufFeedsTheInputRange : Obligations.CrcBufFeedsTheInputRange := by
  refine ⟨decodeCmd_encode .crcBuf, fun s => ⟨exec_crcBuf_of_not_rangeOk, fun h => ?_, fun hoff hlen => ?_⟩⟩
  · rw [exec_crcBuf_of_rangeOk h, crcRun_impl _ .table]
  · rw [exec_crcBuf_of_rangeOk (rangeOk_of_ilen_zero hoff hlen), input_of_ilen_zero hlen]
    rfl

/-! ### Two adjacent ranges -/

section
variable {s : State} {n m : Word} (hlen : n.toNat + m.toNat < 2 ^ 32) (hoff : s.ioff.toNat + n.toNat < 2 ^ 32)
include hlen hoff

/-- A range of `n + m` bytes is its first `n` bytes and the `m` bytes after them, when neither sum wraps. -/
theorem input_of_ilen_add :
    { s with ilen := n + m }.input = { s with ilen := n }.input ++ { s with ioff := s.ioff + n, ilen := m }.input := by
  simp only [State.input, BitVec.toNat_add_of_lt hlen, BitVec.toNat_add_of_lt hoff]
  exact ibufRange_append s _ _ _

/-- CRC_BUF over two adjacent ranges in turn leaves the CRC_STATE of CRC_BUF over the whole (R145). -/
theorem exec_crcBuf_adjacent {t u v : State} (hfit : s.ioff.toNat + (n + m).toNat ≤ s.cfg.ibufSize)
    (ht : exec .crcBuf { s with ilen := n } = .next t)
    (hu : exec .crcBuf { t with ioff := s.ioff + n, ilen := m } = .next u)
    (hv : exec .crcBuf { s with ilen := n + m } = .next v) : u.crcState = v.crcState := by
  have hsum := BitVec.toNat_add_of_lt hlen
  have hfirst : { s with ilen := n }.RangeOk := by
    show s.ioff.toNat + n.toNat ≤ s.cfg.ibufSize
    omega
  cases ht.symm.trans (exec_crcBuf_of_rangeOk hfirst)
  have hsecond : { s with ioff := s.ioff + n, ilen := m }.RangeOk := by
    show (s.ioff + n).toNat + m.toNat ≤ s.cfg.ibufSize
    rw [BitVec.toNat_add_of_lt hoff]
    omega
  cases hu.symm.trans (exec_crcBuf_of_rangeOk hsecond)
  cases hv.symm.trans (exec_crcBuf_of_rangeOk hfit)
  show _ = crcRun s.cfg.crcImpl s.crcState { s with ilen := n + m }.input
  rw [input_of_ilen_add hlen hoff, crcRun_append]
  rfl

end

/-- Settles O50: the law by induction on the first piece; for CRC_BUF by the range that is its two parts appended. -/
theorem crcStreamingLaw : Obligations.CrcStreamingLaw :=
  ⟨crcRun_append, fun _ => rfl, crc32_nil, fun impl _ => crcRun_zeros impl,
    fun _ _ _ _ _ _ hlen hoff => exec_crcBuf_adjacent hlen hoff⟩

/-! ## The frame of every command -/

/-- Settles O28: an error writes the report alone, and each result of a command is a change of the fields its rule names
(60_exceptions R246, R247). -/
theorem eachCommandWritesOnlyWhatItsRuleNames : Obligations.EachCommandWritesOnlyWhatItsRuleNames := by
  intro i s t h
  cases i with
  | nop | crcInit | crcByte | crcLoad | pngClear => cases h; rfl
  | softReset => cases h; exact ⟨rfl, rfl, rfl⟩
  | crcBuf => rcases exec_crcBuf_cases s with ⟨_, e⟩ | ⟨_, e⟩ <;> cases h.symm.trans e <;> rfl
  | tagBytes => rcases exec_tagBytes_cases s with ⟨_, _, e⟩ | ⟨_, e⟩ <;> cases h.symm.trans e <;> rfl
  | tagText =>
    rcases exec_tagText_cases s with ⟨_, e⟩ | ⟨_, _, _, e⟩ | ⟨_, _, e⟩ <;> cases h.symm.trans e <;> rfl
  | chunkEncode =>
    rcases exec_chunkEncode_cases s with ⟨_, e⟩ | ⟨_, _, _, e⟩ | ⟨_, _, _, e⟩ | ⟨_, _, _, e⟩ <;>
      cases h.symm.trans e <;> rfl
  | chunkDecode =>
    rcases exec_chunkDecode_cases s with ⟨_, e⟩ | ⟨_, _, _, e⟩ | ⟨_, _, _, e⟩ <;> cases h.symm.trans e <;> rfl
  | pngParse =>
    rcases exec_pngParse_cases s with ⟨_, e⟩ | ⟨_, _, _, e⟩ | ⟨_, _, _, e⟩ <;> cases h.symm.trans e <;> rfl
  | pngSerialize => rcases exec_pngSerialize_cases s with ⟨_, e⟩ | ⟨_, e⟩ <;> cases h.symm.trans e <;> rfl
  | pngAppend =>
    rcases exec_pngAppend_cases s with ⟨_, e⟩ | ⟨_, _, _, e⟩ | ⟨_, _, _, e⟩ | ⟨_, _, _, _, e⟩ <;>
      cases h.symm.trans e <;> rfl
  | pngRemove =>
    rcases exec_pngRemove_cases s with ⟨_, e⟩ | ⟨_, _, _, e⟩ | ⟨_, _, _, e⟩ | ⟨_, _, _, _, e⟩ <;>
      cases h.symm.trans e <;> rfl
  | pngFind => rcases exec_pngFind_cases s with ⟨_, _, e⟩ | ⟨_, e⟩ <;> cases h.symm.trans e <;> rfl
  | chunkRead =>
    rcases exec_chunkRead_cases s with ⟨_, e⟩ | ⟨_, _, _, e⟩ | ⟨_, _, _, e⟩ <;> cases h.symm.trans e <;> rfl

end Sys2Proof.Machine
end

section
/-! PROOFS of 42_chunk: the wire form and its decode (R160, R163, R164), the round trip (R165), what a changed byte does
(R168), and the commands CHUNK_ENCODE and CHUNK_DECODE (R166, R167). -/

namespace Sys2Proof.Machine

/-! ## The wire form: length field, body (tag and payload), checksum (R160) -/

theorem chunkSerialize_eq_wire (c : Chunk) :
    chunkSerialize c = be32bytes (count c.payload.length) ++ (c.tag.bytes ++ c.payload) ++ be32bytes c.crc := by
  simp [chunkSerialize]

/-- `be32bytes` undoes `be32` on four bytes (00_scope R11). -/
theorem be32bytes_be32_of_length {s : List Byte} (h : s.length = 4) : be32bytes (be32 s) = s := by
  match s, h with
  | [a, b, c, d], _ => exact be32bytes_be32 a b c d

/-- What decode cuts out of a wire form whose length field is right. -/
theorem wire_parts {len : Word} {body q : List Byte} (hbody : body.length = len.toNat + 4) (hq : q.length = 4) :
    let s := be32bytes len ++ body ++ q
    s.length = len.toNat + 12 ∧ be32 s = len ∧ slice s 4 (s.length - 4) = body ∧
      slice s (s.length - 4) s.length = q := by
  intro s
  have hs : s.length = len.toNat + 12 := by simp [s, hbody, hq]; omega
  have hlen : be32 s = len := (congrArg be32 (List.append_assoc ..)).trans (be32_append ..)
  have hmiddle : slice s 4 (s.length - 4) = body := slice_middle _ _ _ rfl (by rw [be32bytes_length]; omega)
  have hlast : slice s (s.length - 4) s.length = q := by
    simpa [s] using slice_middle (be32bytes len ++ body) q [] (i := s.length - 4) (j := s.length)
      (by simp; omega) (by simp; omega)
  exact ⟨hs, hlen, hmiddle, hlast⟩

/-- A wire form with the right length and a checksum that is not the body's. -/
theorem chunkDecode_wire_of_crc_ne {impl : CrcImpl} {len : Word} {body q : List Byte}
    (hbody : body.length = len.toNat + 4) (hq : q.length = 4) (h : crc32 impl body ≠ be32 q) :
    chunkDecode impl (be32bytes len ++ body ++ q) = .error ⟨.invalidChunkCrc, be32 q, crc32 impl body, 0⟩ := by
  obtain ⟨hs, hlen, hmiddle, hlast⟩ := wire_parts hbody hq
  rw [chunkDecode_crc (by omega) (by rw [hlen, hs]) (by rwa [hmiddle, hlast]), hmiddle, hlast]

/-- The length field of a chunk value is exact (R161). -/
theorem Chunk.Wf.lengthField_toNat {impl : CrcImpl} {c : Chunk} (hc : Chunk.Wf impl c) :
    (count c.payload.length).toNat = c.payload.length :=
  count_toNat (Nat.lt_of_le_of_lt hc.payloadLength (by decide))

/-- The body of a serialized chunk value has the length its length field says. -/
theorem Chunk.Wf.body_length {impl : CrcImpl} {c : Chunk} (hc : Chunk.Wf impl c) :
    (c.tag.bytes ++ c.payload).length = (count c.payload.length).toNat + 4 := by
  rw [hc.lengthField_toNat, List.length_append, bytes_length, Nat.add_comm]

/-! ## Round trip (R165) -/

theorem chunkDecode_chunkSerialize {impl : CrcImpl} {c : Chunk} (hc : Chunk.Wf impl c) :
    chunkDecode impl (chunkSerialize c) = .ok c := by
  obtain ⟨hs, hlen, hmiddle, hlast⟩ := wire_parts hc.body_length (be32bytes_length c.crc)
  rw [← chunkSerialize_eq_wire] at hs hlen hmiddle hlast
  have htag : slice (chunkSerialize c) 4 8 = c.tag.bytes := by
    rw [chunkSerialize, List.append_assoc]
    exact slice_middle _ _ _ rfl rfl
  have hpayload : slice (chunkSerialize c) 8 ((chunkSerialize c).length - 4) = c.payload :=
    slice_middle _ _ _ rfl (by simp; omega)
  rw [chunkDecode_ok (by omega) (by rw [hlen, hs]) (by rw [hmiddle, hlast, be32_be32bytes, hc.checksum])
    (by rw [htag]; exact hc.letters), htag, hpayload, hlast, be32_be32bytes]
  rfl

/-- The LEN of a decoded sequence is its length field. -/
theorem count_payload_length {s : List Byte} (h : s.length = (be32 s).toNat + 12) :
    count (slice s 8 (s.length - 4)).length = be32 s := by
  have hn : min (s.length - 4 - 8) (s.length - 8) = (be32 s).toNat := by omega
  rw [slice_length, hn, count_toNat_self]

/-- A decoded sequence is its length field, tag, payload and checksum, one after the other. -/
theorem chunkSerialize_of_chunkDecode {impl : CrcImpl} {s : List Byte} {c : Chunk} (h : chunkDecode impl s = .ok c) :
    chunkSerialize c = s := by
  rcases chunkDecode_cases impl s with ⟨_, e⟩ | ⟨_, _, e⟩ | ⟨_, _, e⟩ | ⟨_, _, _, e⟩ |
    ⟨h12, hlen, _, ⟨_, _, e⟩ | ⟨_, e⟩⟩ <;> cases h.symm.trans e
  have hfield : count (slice s 8 (s.length - 4)).length = be32 (slice s 0 4) := by
    rw [count_payload_length hlen, slice_zero, be32_take]
  have hfour {i j : Nat} (hij : j = i + 4) (hj : j ≤ s.length) : (slice s i j).length = 4 := by
    rw [slice_length]; omega
  calc chunkSerialize _
      = slice s 0 4 ++ slice s 4 8 ++ slice s 8 (s.length - 4) ++ slice s (s.length - 4) s.length := by
        rw [chunkSerialize, hfield, be32bytes_be32_of_length (hfour rfl (by omega)),
          bytes_ofBytes (hfour rfl (by omega)), be32bytes_be32_of_length (hfour (by omega) (Nat.le_refl _))]
    _ = slice s 0 s.length := by
        rw [slice_append_slice s (by omega) (by omega), slice_append_slice s (by omega) (by omega),
          slice_append_slice s (by omega) (by omega)]
    _ = s := by rw [slice_zero, List.take_length]

/-- Settles O51: the wire form of a chunk value passes every check, and a decoded sequence is put together again. -/
theorem chunkRoundTrip : Obligations.ChunkRoundTrip :=
  ⟨fun _ _ => chunkDecode_chunkSerialize, fun _ _ _ h => ⟨chunkSerialize_of_chunkDecode h, chunkDecode_wf h⟩⟩

/-! ## A changed byte (R168)

A byte step loses nothing: bit 31 of a shift is the bit shifted out, so a shift is injective, and a step is eight shifts of
`c ^^^ b`. So two bodies that differ in one byte have different CRCs. -/

/-- The polynomial has bit 31, so bit 31 of a shift is the bit shifted out. -/
theorem crcShift_getLsbD_31 (c : Word) : (crcShift c).getLsbD 31 = c.getLsbD 0 := by
  rw [crcShift]
  cases c.getLsbD 0 <;> simp [crcPoly]

theorem crcShift_injective : Function.Injective crcShift := by
  intro a b h
  have hlow : a.getLsbD 0 = b.getLsbD 0 := by rw [← crcShift_getLsbD_31, h, crcShift_getLsbD_31]
  have hrest : a >>> 1 = b >>> 1 := by
    rw [crcShift, crcShift, hlow] at h
    split at h
    · exact BitVec.xor_left_inj _ |>.1 h
    · exact h
  apply BitVec.eq_of_getLsbD_eq
  intro i _
  cases i with
  | zero => exact hlow
  | succ i => simpa [Nat.add_comm] using congrArg (·.getLsbD i) hrest

theorem crcShifts_injective (n : Nat) : Function.Injective (crcShifts n) := by
  induction n with
  | zero => exact fun _ _ h => h
  | succ n ih => exact ih.comp crcShift_injective

theorem crcStep_eq_crcShifts (impl : CrcImpl) (c : Word) (b : Byte) :
    crcStep impl c b = crcShifts 8 (c ^^^ b.setWidth 32) :=
  crcStep_impl impl .bitSerial c b

theorem crcStep_injective_crc (impl : CrcImpl) (b : Byte) : Function.Injective (crcStep impl · b) := by
  intro c d h
  simp only [crcStep_eq_crcShifts] at h
  exact (BitVec.xor_left_inj _).1 (crcShifts_injective 8 h)

theorem crcStep_injective_byte (impl : CrcImpl) (c : Word) : Function.Injective (crcStep impl c) := by
  intro a b h
  rw [crcStep_eq_crcShifts, crcStep_eq_crcShifts] at h
  have hw : a.setWidth 32 = b.setWidth 32 := (BitVec.xor_right_inj _).1 (crcShifts_injective 8 h)
  simpa using congrArg (BitVec.setWidth 8) hw

theorem crcRun_injective (impl : CrcImpl) (s : List Byte) : Function.Injective (crcRun impl · s) := by
  induction s with
  | nil => exact fun _ _ h => h
  | cons b s ih => exact ih.comp (crcStep_injective_crc impl b)

/-- The run over the bytes before is the same, the two steps differ, and the run over the bytes after keeps them apart. -/
theorem crcRun_append_cons_inj {impl : CrcImpl} {c : Word} {p q : List Byte} {x y : Byte}
    (h : crcRun impl c (p ++ x :: q) = crcRun impl c (p ++ y :: q)) : x = y := by
  rw [crcRun_append, crcRun_append] at h
  exact crcStep_injective_byte impl _ (crcRun_injective impl q h)

/-- The CRC tells a byte from every other one in its place. -/
theorem crc32_set_ne (impl : CrcImpl) {s : List Byte} {k : Nat} {b : Byte} (hk : k < s.length) (hb : b ≠ s.getD k 0) :
    crc32 impl (s.set k b) ≠ crc32 impl s := by
  intro h
  have hrun : crcRun impl 0xFFFFFFFF (s.set k b) = crcRun impl 0xFFFFFFFF s := (BitVec.xor_left_inj _).1 h
  have hset : s.set k b = s.take k ++ b :: s.drop (k + 1) := by rw [List.set_eq_take_append_cons_drop, if_pos hk]
  have hs : s = s.take k ++ s[k] :: s.drop (k + 1) := by simp
  rw [List.getD_eq_getElem _ _ hk] at hb
  exact hb (crcRun_append_cons_inj (hset ▸ hrun.trans (congrArg _ hs)))

/-- `be32` tells a byte of four from every other one in its place. -/
theorem be32_set_ne {s : List Byte} {k : Nat} {b : Byte} (hs : s.length = 4) (hk : k < s.length) (hb : b ≠ s.getD k 0) :
    be32 (s.set k b) ≠ be32 s := by
  intro h
  have hset : s.set k b = s := by
    calc s.set k b = be32bytes (be32 (s.set k b)) := (be32bytes_be32_of_length (by rwa [List.length_set])).symm
      _ = s := by rw [h, be32bytes_be32_of_length hs]
  have hbyte : (s.set k b).getD k 0 = b := by simp [hk]
  exact hb (by rw [← hbyte, hset])

/-- A wire form whose checksum is its body's, with one byte of the body or of the checksum changed. -/
theorem chunkDecode_wire_set {impl : CrcImpl} {len : Word} {body q : List Byte} (hbody : body.length = len.toNat + 4)
    (hq : q.length = 4) (hcrc : crc32 impl body = be32 q) {k : Nat} {b : Byte} (h4 : 4 ≤ k) (hk : k < len.toNat + 12)
    (hb : b ≠ (be32bytes len ++ body ++ q).getD k 0) :
    ∃ e, chunkDecode impl ((be32bytes len ++ body ++ q).set k b) = .error e ∧ e.kind = .invalidChunkCrc := by
  have hhead : (be32bytes len ++ body).length = len.toNat + 8 := by simp [hbody]; omega
  by_cases hreg : k < len.toNat + 8
  · rw [List.getD_append _ _ _ _ (by omega), List.getD_append_right _ _ _ _ h4] at hb
    rw [List.set_append_left _ _ (by omega), List.set_append_right _ _ h4]
    refine ⟨_, chunkDecode_wire_of_crc_ne (by rwa [List.length_set]) hq ?_, rfl⟩
    rw [← hcrc]
    exact crc32_set_ne impl (by rw [be32bytes_length]; omega) hb
  · rw [List.getD_append_right _ _ _ _ (by omega)] at hb
    rw [List.set_append_right _ _ (by omega)]
    refine ⟨_, chunkDecode_wire_of_crc_ne hbody (by rwa [List.length_set]) ?_, rfl⟩
    rw [hcrc]
    exact (be32_set_ne hq (by omega) hb).symm

/-- Settles O54: a changed byte of the body changes the computed CRC, one of the checksum the declared CRC. -/
theorem tamperedByteFailsTheChecksum : Obligations.TamperedByteFailsTheChecksum := by
  intro impl c k b hc h4 hk hb
  rw [chunkSerialize_eq_wire] at hb ⊢
  exact chunkDecode_wire_set hc.body_length rfl (by rw [be32_be32bytes, hc.checksum]) h4 (by rwa [hc.lengthField_toNat]) hb

/-- Settles O55: the length check is exact, so it passes for the payload's own length only. -/
theorem changedLengthFieldFails : Obligations.ChangedLengthFieldFails := by
  intro impl c len _ hne
  have hlength : (be32bytes len ++ (chunkSerialize c).drop 4).length = c.payload.length + 12 := by simp; omega
  have hother : c.payload.length ≠ len.toNat := fun h => hne (by rw [h]; exact (count_toNat_self len).symm)
  rw [chunkDecode_length (by omega) (by rw [hlength, be32_append]; omega), be32_append, hlength, Nat.add_sub_cancel]
  rfl

/-! ## CHUNK_ENCODE (R166) -/

section Encode
variable {s : State}

/-- The wire bytes of the chunk that CHUNK_ENCODE derives from its operands. -/
theorem chunkSerialize_operandChunk (s : State) (t : Tag) :
    chunkSerialize (chunkConstruct s.cfg.crcImpl t s.input) =
      be32bytes s.ilen ++ t.bytes ++ s.input ++ be32bytes (crc32 s.cfg.crcImpl (t.bytes ++ s.input)) := by
  simp [chunkSerialize, chunkConstruct]

theorem exec_chunkEncode_of_not_rangeOk (hr : ¬ s.RangeOk) :
    exec .chunkEncode s = .next (s.failedWith 9 s.ioff s.ilen 0) := by
  rcases exec_chunkEncode_cases s with ⟨_, e⟩ | ⟨_, h, _⟩ | ⟨h, _⟩ | ⟨h, _⟩
  · exact e
  all_goals exact absurd h hr

theorem exec_chunkEncode_of_failsAt (hr : s.RangeOk) {i : Nat} (hi : (Tag.unpack s.arg0).FailsAt i) :
    exec .chunkEncode s = .next (s.failedWith 1 s.arg0 (BitVec.ofNat 32 i) 0) := by
  rcases exec_chunkEncode_cases s with ⟨h, _⟩ | ⟨j, _, hj, e⟩ | ⟨_, h, _⟩ | ⟨_, h, _⟩
  · exact absurd hr h
  · rw [failsAt_unique hi hj]
    exact e
  all_goals exact absurd hi (not_failsAt_of_letters h i)

theorem exec_chunkEncode_of_overflow (hr : s.RangeOk) (ht : (Tag.unpack s.arg0).letters = true)
    (ho : s.cfg.obufSize < s.ilen.toNat + 12) :
    exec .chunkEncode s =
      .next (s.failedWith 10 (BitVec.ofNat 32 (s.ilen.toNat + 12)) (BitVec.ofNat 32 s.cfg.obufSize) 0) := by
  rcases exec_chunkEncode_cases s with ⟨h, _⟩ | ⟨i, _, hi, _⟩ | ⟨_, _, _, e⟩ | ⟨_, _, h, _⟩
  · exact absurd hr h
  · exact absurd hi (not_failsAt_of_letters ht i)
  · exact e
  · exact absurd ho (Nat.not_lt.2 h)

theorem exec_chunkEncode_of_fits (hr : s.RangeOk) (ht : (Tag.unpack s.arg0).letters = true)
    (ho : s.ilen.toNat + 12 ≤ s.cfg.obufSize) :
    let c := chunkConstruct s.cfg.crcImpl (Tag.unpack s.arg0) s.input
    exec .chunkEncode s = .next ((s.writeOutput (chunkSerialize c)).producedChunk c).succeed := by
  rcases exec_chunkEncode_cases s with ⟨h, _⟩ | ⟨i, _, hi, _⟩ | ⟨_, _, h, _⟩ | ⟨_, _, _, e⟩
  · exact absurd hr h
  · exact absurd hi (not_failsAt_of_letters ht i)
  · exact absurd h (Nat.not_lt.2 ho)
  · exact e

end Encode

/-- Settles O17: the four answers of the command; on success OBUF holds the wire bytes of the derived chunk. -/
theorem chunkEncodeWritesTheChunk : Obligations.ChunkEncodeWritesTheChunk := by
  refine ⟨decodeCmd_encode .chunkEncode, fun s => ⟨exec_chunkEncode_of_not_rangeOk,
    fun _ hr => exec_chunkEncode_of_failsAt hr, exec_chunkEncode_of_overflow,
    fun hr ht ho => ⟨_, exec_chunkEncode_of_fits hr ht ho, ?_, fun a => ?_⟩⟩⟩
  · simp [State.completed, State.succeed, State.producedChunk, State.writeOutput, chunkConstruct, count]
  · have hn : s.ilen.toNat + 12 =
        (chunkSerialize (chunkConstruct s.cfg.crcImpl (Tag.unpack s.arg0) s.input)).length := by
      simp [chunkConstruct]
    rw [← chunkSerialize_operandChunk, hn]
    exact writeOutput_obufByte s _ a

/-! ## CHUNK_DECODE (R167) -/

section Decode
variable {s : State}

theorem exec_chunkDecode_of_not_rangeOk (hr : ¬ s.RangeOk) :
    exec .chunkDecode s = .next (s.failedWith 9 s.ioff s.ilen 0) := by
  rcases exec_chunkDecode_cases s with ⟨_, e⟩ | ⟨_, h, _⟩ | ⟨_, h, _⟩
  · exact e
  all_goals exact absurd h hr

theorem exec_chunkDecode_of_error (hr : s.RangeOk) {e : CmdError} (h : chunkDecode s.cfg.crcImpl s.input = .error e) :
    exec .chunkDecode s = .next (s.raise e) := by
  rcases exec_chunkDecode_cases s with ⟨hn, _⟩ | ⟨_, _, h', he⟩ | ⟨_, _, h', _⟩
  · exact absurd hr hn
  · cases h.symm.trans h'
    exact he
  · cases h.symm.trans h'

theorem exec_chunkDecode_of_ok (hr : s.RangeOk) {c : Chunk} (h : chunkDecode s.cfg.crcImpl s.input = .ok c) :
    exec .chunkDecode s = .next (s.producedChunk c).succeed := by
  rcases exec_chunkDecode_cases s with ⟨hn, _⟩ | ⟨_, _, h', _⟩ | ⟨_, _, h', he⟩
  · exact absurd hr hn
  · cases h.symm.trans h'
  · cases h.symm.trans h'
    exact he

end Decode

/-- `Tag.ofBytes` reads the first four bytes only. -/
theorem ofBytes_take (s : List Byte) : Tag.ofBytes (s.take 4) = Tag.ofBytes s := by
  rcases s with _ | ⟨a, _ | ⟨b, _ | ⟨c, _ | ⟨d, s⟩⟩⟩⟩ <;> rfl

/-- A slice that ends with the sequence. -/
theorem slice_to_length (s : List Byte) (i : Nat) : slice s i s.length = s.drop i := by simp [slice]

/-- Settles O18: each answer of `chunk_decode` over the input range, in the order of its checks. -/
theorem chunkDecodeChecksInOrder : Obligations.ChunkDecodeChecksInOrder := by
  refine ⟨decodeCmd_encode .chunkDecode, fun s => ?_⟩
  have hn := input_length s
  have hcount : count s.input.length = s.ilen := by rw [hn, count_toNat_self]
  have hbody : (s.input.drop 4).take (s.ilen.toNat - 8) = slice s.input 4 (s.input.length - 4) := by
    rw [hn, slice, Nat.sub_sub]
  have hlast : s.input.drop (s.ilen.toNat - 4) = slice s.input (s.input.length - 4) s.input.length := by
    rw [slice_to_length, hn]
  have htag : Tag.ofBytes (s.input.drop 4) = Tag.ofBytes (slice s.input 4 8) := (ofBytes_take _).symm
  simp only [hbody, hlast, htag]
  rw [← hn]
  refine ⟨exec_chunkDecode_of_not_rangeOk, fun hr h4 => ?_, fun hr h4 h12 => ?_, fun hr h12 hl => ?_,
    fun hr h12 hl hc => ?_, fun i hr h12 hl hc ht => ?_, fun hr h12 hl hc ht => ?_⟩
  · exact exec_chunkDecode_of_error hr (hcount ▸ chunkDecode_short h4)
  · exact exec_chunkDecode_of_error hr (hcount ▸ chunkDecode_truncated h4 h12)
  · exact exec_chunkDecode_of_error hr (chunkDecode_length h12 hl)
  · exact exec_chunkDecode_of_error hr (chunkDecode_crc h12 hl hc.symm)
  · exact exec_chunkDecode_of_error hr (chunkDecode_tag h12 hl hc.symm ht)
  · rw [exec_chunkDecode_of_ok hr (chunkDecode_ok h12 hl hc.symm ht), State.producedChunk, count_payload_length hl]
    rfl

end Sys2Proof.Machine
end

section
/-! PROOFS of 43_container: the parse of a container (R192), the round trip (R194), the container commands (R195 to R197,
R199 to R201), and the container properties (R203). -/

namespace Sys2Proof.Machine

/-! ## The signature (R192) -/

theorem signature_length {cfg : Config} (h : cfg.legal = true) : cfg.signature.length = 8 := by
  obtain ⟨_, _, _, _, _, _, _, _, _, _, _, h8⟩ := legal_facts h
  exact h8

/-- A missing byte counts as 0, so zero padding does not show. -/
theorem be32_append_replicate_zero (s : List Byte) (n : Nat) : be32 (s ++ List.replicate n 0) = be32 s := by
  have hget (i : Nat) : (s ++ List.replicate n 0).getD i 0 = s.getD i 0 := by
    rcases Nat.lt_or_ge i s.length with h | h
    · exact List.getD_append _ _ _ _ h
    · rw [List.getD_append_right _ _ _ _ h, List.getD_eq_default _ _ h, List.getD_eq_getElem?_getD,
        List.getElem?_getD_replicate_default_eq]
  simp only [be32, hget]

/-- Input that does not begin with SIGNATURE: the two words of its first eight bytes are reported. -/
theorem containerParse_of_not_signature {cfg : Config} {s : List Byte} (h : ¬ cfg.signature <+: s) :
    containerParse cfg s = .error ⟨.invalidSignature, be32 (s.take 4), be32 ((s.take 8).drop 4), 0⟩ := by
  have hne : slice s 0 8 ≠ cfg.signature := by
    rw [slice_zero]
    exact fun he => h ⟨s.drop 8, by rw [← he, List.take_append_drop]⟩
  have hlow : (s.take 8).take 4 = s.take 4 := by rw [List.take_take]; rfl
  rw [containerParse, if_pos (.inr hne)]
  dsimp only
  rw [slice_zero, slice_zero, be32_take, be32_append_replicate_zero, slice, be32_take, List.drop_append,
    List.drop_replicate, be32_append_replicate_zero, ← be32_take, hlow]

/-- After SIGNATURE the rounds of the loop answer. -/
theorem containerParse_signature_append {cfg : Config} (hcfg : cfg.legal = true) (rest : List Byte) :
    containerParse cfg (cfg.signature ++ rest) = parseChunks cfg rest.length rest 8 [] 0 := by
  have h8 := signature_length hcfg
  have hpass : ¬ ((cfg.signature ++ rest).length < 8 ∨ slice (cfg.signature ++ rest) 0 8 ≠ cfg.signature) := by
    rw [slice_zero, ← h8, List.take_left]
    simp
  rw [containerParse, if_neg hpass, ← h8, List.drop_left]
  exact parseChunks_fuel cfg _ _ _ (by simp) (Nat.le_refl _)

/-! ## The rounds of the parse (R192) -/

/-- The bytes handed to decode are cut by the length field of the chunk that stands there. -/
theorem cutLength_chunkSerialize_append {impl : CrcImpl} {c : Chunk} (hc : Chunk.Wf impl c) (rest : List Byte) :
    cutLength (chunkSerialize c ++ rest) = (chunkSerialize c).length := by
  have hfield : be32 (chunkSerialize c ++ rest) = count c.payload.length := by
    simp only [chunkSerialize, List.append_assoc]
    exact be32_append _ _
  rw [cutLength, slice_zero, be32_take, hfield, hc.lengthField_toNat, if_neg (by simp; omega)]
  simp

/-- One round over a well-formed chunk. -/
theorem parseChunks_chunkSerialize_append {cfg : Config} {c : Chunk} (hc : Chunk.Wf cfg.crcImpl c) (rest : List Byte)
    (p : Nat) (out : List Chunk) (bytes : Nat) :
    parseChunks cfg (chunkSerialize c ++ rest).length (chunkSerialize c ++ rest) p out bytes =
      if storeFits cfg (out.length + 1) (bytes + c.payload.length) then
        parseChunks cfg rest.length rest (p + (chunkSerialize c).length) (out ++ [c]) (bytes + c.payload.length)
      else .error (storeFull (out.length + 1) (bytes + c.payload.length) p) := by
  have hne : chunkSerialize c ++ rest ≠ [] := List.ne_nil_of_length_pos (by simp)
  rw [parseChunks_round cfg p out bytes hne, cutLength_chunkSerialize_append hc, slice_zero, List.take_left,
    chunkDecode_chunkSerialize hc, List.drop_left]

/-- The rounds over chunks within capacity, whatever follows them: each adds its chunk. -/
theorem parseChunks_chunksSerialize_append {cfg : Config} {out l : List Chunk} (h : StoreWf cfg (out ++ l))
    (rest : List Byte) (p : Nat) :
    parseChunks cfg (chunksSerialize l ++ rest).length (chunksSerialize l ++ rest) p out (payloadBytes out) =
      parseChunks cfg rest.length rest (p + (chunksSerialize l).length) (out ++ l) (payloadBytes (out ++ l)) := by
  induction l generalizing out p with
  | nil => simp [chunksSerialize]
  | cons c l ih =>
    have hsplit : out ++ c :: l = out ++ [c] ++ l := by simp
    rw [hsplit] at h ⊢
    have hfirst : StoreWf cfg (out ++ [c]) := h.sublist (List.sublist_append_left _ _)
    have hbytes : payloadBytes (out ++ [c]) = payloadBytes out + c.payload.length := by
      simp [payloadBytes_append, payloadBytes]
    have hfits : storeFits cfg (out.length + 1) (payloadBytes out + c.payload.length) = true :=
      (storeFits_iff _ _ _).2 ⟨by simpa using hfirst.chunkCount, hbytes ▸ hfirst.chunkBytes⟩
    rw [chunksSerialize, List.append_assoc, parseChunks_chunkSerialize_append (hfirst.chunks c (by simp)), if_pos hfits,
      ← hbytes, ih h, List.length_append, Nat.add_assoc]

/-- The parse of SIGNATURE and of chunks within capacity goes on with the bytes that follow. -/
theorem containerParse_containerSerialize_append {cfg : Config} {l : List Chunk} (hcfg : cfg.legal = true)
    (hl : StoreWf cfg l) (rest : List Byte) :
    containerParse cfg (containerSerialize cfg l ++ rest) =
      parseChunks cfg rest.length rest (8 + (chunksSerialize l).length) l (payloadBytes l) := by
  rw [containerSerialize, List.append_assoc, containerParse_signature_append hcfg]
  exact parseChunks_chunksSerialize_append (out := []) hl rest 8

/-- Settles O52: after the last chunk no byte is left. -/
theorem containerRoundTrip : Obligations.ContainerRoundTrip := by
  intro cfg l hcfg hwf hn hb
  have hl : StoreWf cfg l := ⟨hwf, hn, payloadBytes_eq_sum l ▸ hb⟩
  simpa using containerParse_containerSerialize_append hcfg hl []

/-- Settles O53: the rounds before the failing chunk add theirs, and the round over it ends the parse. -/
theorem parseStopsAtTheFirstFailingChunk : Obligations.ParseStopsAtTheFirstFailingChunk := by
  intro cfg l hcfg hwf hn hb
  rw [← payloadBytes_eq_sum] at hb ⊢
  rw [← chunksSerialize_eq_flatten]
  have hparse := containerParse_containerSerialize_append hcfg ⟨hwf, hn, hb⟩
  refine ⟨fun rest e hne hd => ?_, fun c rest hc hfull => ?_⟩
  · have hcut : slice rest 0 (cutLength rest) =
        rest.take (if rest.length < 4 then rest.length else min ((be32 rest).toNat + 12) rest.length) := by
      rw [slice_zero, cutLength, slice_zero, be32_take]
    refine (hparse rest).trans ?_
    rw [parseChunks_round cfg _ _ _ hne, hcut, hd]
    rfl
  · have hnot : ¬ storeFits cfg (l.length + 1) (payloadBytes l + c.payload.length) = true := by
      rw [storeFits_iff]
      omega
    refine ⟨_, ?_, totalWord_of_lt⟩
    rw [List.append_assoc]
    refine (hparse _).trans ?_
    rw [parseChunks_chunkSerialize_append hc, if_neg hnot]
    rfl

/-! ## PNG_PARSE (R195) -/

section Parse
variable {s : State}

theorem exec_pngParse_of_not_rangeOk (hr : ¬ s.RangeOk) :
    exec .pngParse s = .next (s.failedWith 9 s.ioff s.ilen 0) := by
  rcases exec_pngParse_cases s with ⟨_, e⟩ | ⟨_, h, _⟩ | ⟨_, h, _⟩
  · exact e
  all_goals exact absurd h hr

theorem exec_pngParse_of_error (hr : s.RangeOk) {e : CmdError} (h : containerParse s.cfg s.input = .error e) :
    exec .pngParse s = .next (s.raise e) := by
  rcases exec_pngParse_cases s with ⟨hn, _⟩ | ⟨_, _, h', he⟩ | ⟨_, _, h', _⟩
  · exact absurd hr hn
  · cases h.symm.trans h'
    exact he
  · cases h.symm.trans h'

theorem exec_pngParse_of_ok (hr : s.RangeOk) {l : List Chunk} (h : containerParse s.cfg s.input = .ok l) :
    exec .pngParse s = .next { s with store := l }.completed := by
  rcases exec_pngParse_cases s with ⟨hn, _⟩ | ⟨_, _, h', _⟩ | ⟨_, _, h', he⟩
  · exact absurd hr hn
  · cases h.symm.trans h'
  · cases h.symm.trans h'
    exact he

end Parse

/-- Settles O19: the range check, then what `container_parse` answers over the input range. -/
theorem pngParseReplacesTheStore : Obligations.PngParseReplacesTheStore :=
  ⟨decodeCmd_encode .pngParse, fun _ _ => ⟨exec_pngParse_of_not_rangeOk,
    fun hr hs => exec_pngParse_of_error hr (containerParse_of_not_signature hs),
    fun _ hr _ h => ⟨exec_pngParse_of_ok hr h, rfl⟩, fun _ hr _ h => exec_pngParse_of_error hr h⟩⟩

/-! ## PNG_SERIALIZE (R197) -/

/-- Settles O20: the two answers of the output check over the serialized store. -/
theorem pngSerializeWritesTheContainer : Obligations.PngSerializeWritesTheContainer := by
  refine ⟨decodeCmd_encode .pngSerialize, fun s => ?_⟩
  rw [← chunksSerialize_eq_flatten]
  refine ⟨fun hlt => ?_, fun hle => ?_⟩
  · rcases exec_pngSerialize_cases s with ⟨_, e⟩ | ⟨h, _⟩
    · exact e
    · exact absurd hlt (Nat.not_lt.2 h)
  · rcases exec_pngSerialize_cases s with ⟨h, _⟩ | ⟨_, e⟩
    · exact absurd h (Nat.not_lt.2 hle)
    · exact ⟨_, e, rfl, writeOutput_obufByte s _⟩

/-! ## PNG_APPEND (R196) -/

/-- Code 0 is no error's (60_exceptions R241). -/
theorem raise_errCode_ne_zero (s : State) (e : CmdError) : (s.raise e).errCode ≠ 0 := by
  rw [raise_errCode]
  cases e.kind <;> decide

section Append
variable {s : State}

theorem exec_pngAppend_of_not_rangeOk (hr : ¬ s.RangeOk) :
    exec .pngAppend s = .next (s.failedWith 9 s.ioff s.ilen 0) := by
  rcases exec_pngAppend_cases s with ⟨_, e⟩ | ⟨_, h, _⟩ | ⟨h, _⟩ | ⟨h, _⟩
  · exact e
  all_goals exact absurd h hr

theorem exec_pngAppend_of_failsAt (hr : s.RangeOk) {i : Nat} (hi : (Tag.unpack s.arg0).FailsAt i) :
    exec .pngAppend s = .next (s.failedWith 1 s.arg0 (BitVec.ofNat 32 i) 0) := by
  rcases exec_pngAppend_cases s with ⟨h, _⟩ | ⟨j, _, hj, e⟩ | ⟨_, h, _⟩ | ⟨_, h, _⟩
  · exact absurd hr h
  · rw [failsAt_unique hi hj]
    exact e
  all_goals exact absurd hi (not_failsAt_of_letters h i)

theorem exec_pngAppend_of_full (hr : s.RangeOk) (ht : (Tag.unpack s.arg0).letters = true)
    (hfull : s.cfg.maxChunks < s.store.length + 1 ∨ s.cfg.storeBytes < payloadBytes s.store + s.ilen.toNat) :
    exec .pngAppend s = .next (s.failedWith 11 (BitVec.ofNat 32 (s.store.length + 1))
      (totalWord (payloadBytes s.store + s.ilen.toNat)) 0) := by
  rcases exec_pngAppend_cases s with ⟨h, _⟩ | ⟨i, _, hi, _⟩ | ⟨_, _, _, e⟩ | ⟨_, _, hn, hb, _⟩
  · exact absurd hr h
  · exact absurd hi (not_failsAt_of_letters ht i)
  · exact e
  · omega

theorem exec_pngAppend_of_fits (hr : s.RangeOk) (ht : (Tag.unpack s.arg0).letters = true)
    (hn : s.store.length + 1 ≤ s.cfg.maxChunks) (hb : payloadBytes s.store + s.ilen.toNat ≤ s.cfg.storeBytes) :
    let c := chunkConstruct s.cfg.crcImpl (Tag.unpack s.arg0) s.input
    exec .pngAppend s = .next ({ s with store := s.store ++ [c] }.producedChunk c).succeed := by
  rcases exec_pngAppend_cases s with ⟨h, _⟩ | ⟨i, _, hi, _⟩ | ⟨_, _, h, _⟩ | ⟨_, _, _, _, e⟩
  · exact absurd hr h
  · exact absurd hi (not_failsAt_of_letters ht i)
  · exact absurd ⟨hn, hb⟩ h
  · exact e

/-- A PNG_APPEND without an error had a tag of letters, and put the derived chunk at the end of STORE. -/
theorem exec_pngAppend_of_errCode_zero {t : State} (h : exec .pngAppend s = .next t) (h0 : t.errCode = 0) :
    let c := chunkConstruct s.cfg.crcImpl (Tag.unpack s.arg0) s.input
    (Tag.unpack s.arg0).letters = true ∧ t = ({ s with store := s.store ++ [c] }.producedChunk c).succeed := by
  rcases exec_pngAppend_cases s with ⟨_, e⟩ | ⟨_, _, _, e⟩ | ⟨_, _, _, e⟩ | ⟨_, ht, _, _, e⟩ <;>
    cases h.symm.trans e
  · exact absurd h0 (raise_errCode_ne_zero s _)
  · exact absurd h0 (raise_errCode_ne_zero s _)
  · exact absurd h0 (raise_errCode_ne_zero s _)
  · exact ⟨ht, rfl⟩

end Append

/-- Settles O21: the four answers of the command; LEN is the payload's length, which is ILEN. -/
theorem pngAppendAddsAtTheEnd : Obligations.PngAppendAddsAtTheEnd := by
  refine ⟨decodeCmd_encode .pngAppend, fun s => ?_⟩
  rw [← payloadBytes_eq_sum]
  refine ⟨exec_pngAppend_of_not_rangeOk, fun _ hr => exec_pngAppend_of_failsAt hr,
    fun hr ht hfull => ⟨_, exec_pngAppend_of_full hr ht hfull, totalWord_of_lt⟩, fun hr ht hn hb => ?_⟩
  rw [exec_pngAppend_of_fits hr ht hn hb]
  simp [State.completed, State.succeed, State.producedChunk, chunkConstruct]

/-! ## PNG_REMOVE (R199) -/

section Remove
variable {s : State}

theorem exec_pngRemove_of_not_length (h : s.tlen ≠ 4) :
    exec .pngRemove s = .next (s.failedWith 1 s.arg0 0xFFFFFFFF 0) := by
  rcases exec_pngRemove_cases s with ⟨_, e⟩ | ⟨_, h4, _⟩ | ⟨h4, _⟩ | ⟨_, h4, _⟩
  · exact e
  all_goals exact absurd h4 h

theorem exec_pngRemove_of_failsAt (h4 : s.tlen = 4) {i : Nat} (hi : (Tag.unpack s.arg0).FailsAt i) :
    exec .pngRemove s = .next (s.failedWith 1 s.arg0 (BitVec.ofNat 32 i) 0) := by
  rcases exec_pngRemove_cases s with ⟨h, _⟩ | ⟨j, _, hj, e⟩ | ⟨_, h, _⟩ | ⟨_, _, h, _⟩
  · exact absurd h4 h
  · rw [failsAt_unique hi hj]
    exact e
  all_goals exact absurd hi (not_failsAt_of_letters h i)

theorem exec_pngRemove_of_absent (h4 : s.tlen = 4) (ht : (Tag.unpack s.arg0).letters = true)
    (h : ∀ c ∈ s.store, c.tag ≠ Tag.unpack s.arg0) :
    exec .pngRemove s = .next (s.failedWith 7 s.arg0 (BitVec.ofNat 32 s.store.length) 0) := by
  rcases exec_pngRemove_cases s with ⟨h', _⟩ | ⟨i, _, hi, _⟩ | ⟨_, _, _, e⟩ | ⟨_, _, _, hm, _⟩
  · exact absurd h4 h'
  · exact absurd hi (not_failsAt_of_letters ht i)
  · exact e
  · cases (firstMatch_eq_none.2 h).symm.trans hm

/-- The first chunk with the tag is taken out from between the chunks before it and those after it. -/
theorem exec_pngRemove_of_split (h4 : s.tlen = 4) (ht : (Tag.unpack s.arg0).letters = true) {before after : List Chunk}
    {c : Chunk} (hs : s.store = before ++ c :: after) (hc : c.tag = Tag.unpack s.arg0)
    (hb : ∀ d ∈ before, d.tag ≠ Tag.unpack s.arg0) :
    exec .pngRemove s =
      .next { s with store := before ++ after, index := BitVec.ofNat 32 before.length }.completed := by
  have hm := firstMatch_append (after := after) hc hb
  rw [← hs] at hm
  rcases exec_pngRemove_cases s with ⟨h', _⟩ | ⟨i, _, hi, _⟩ | ⟨_, _, hnone, _⟩ | ⟨i, _, _, hi, e⟩
  · exact absurd h4 h'
  · exact absurd hi (not_failsAt_of_letters ht i)
  · cases hm.symm.trans hnone
  · cases hm.symm.trans hi
    have hrest : s.store.take before.length ++ s.store.drop (before.length + 1) = before ++ after := by simp [hs]
    rw [e, hrest]
    rfl

end Remove

/-- Settles O22: the tag text's errors, then the first match decides. -/
theorem pngRemoveRemovesTheFirstMatch : Obligations.PngRemoveRemovesTheFirstMatch :=
  ⟨decodeCmd_encode .pngRemove, fun _ => ⟨exec_pngRemove_of_not_length, fun _ h4 => exec_pngRemove_of_failsAt h4,
    exec_pngRemove_of_absent, fun _ _ _ h4 ht hs hc hb => exec_pngRemove_of_split h4 ht hs hc hb⟩⟩

/-! ## PNG_FIND (R200) -/

section Find
variable {s : State}

theorem exec_pngFind_of_firstMatch (h4 : s.tlen = 4) (ht : (Tag.unpack s.arg0).letters = true) {i : Nat}
    (hm : firstMatch (Tag.unpack s.arg0) s.store = some i) :
    exec .pngFind s = .next { s with found := true, index := BitVec.ofNat 32 i }.completed := by
  have hfind : findIndex s = some i := by rw [findIndex_eq, if_pos ⟨h4, ht⟩, hm]
  rcases exec_pngFind_cases s with ⟨j, hj, e⟩ | ⟨hnone, _⟩
  · cases hfind.symm.trans hj
    exact e
  · cases hfind.symm.trans hnone

/-- A tag text of another length, a byte that is no letter, and a tag that no chunk has all read as absent. -/
theorem exec_pngFind_of_no_match
    (h : s.tlen ≠ 4 ∨ (Tag.unpack s.arg0).letters = false ∨ ∀ c ∈ s.store, c.tag ≠ Tag.unpack s.arg0) :
    exec .pngFind s = .next { s with found := false, index := 0xFFFFFFFF }.completed := by
  have hnone : findIndex s = none := by
    rw [findIndex_eq, ite_eq_right_iff]
    rintro ⟨h4, ht⟩
    exact firstMatch_eq_none.2 ((h.resolve_left (not_not.2 h4)).resolve_left (by simp [ht]))
  rcases exec_pngFind_cases s with ⟨_, hj, _⟩ | ⟨_, e⟩
  · cases hnone.symm.trans hj
  · exact e

end Find

/-- Settles O23: what PNG_FIND looks up is the first match of a well-formed tag text, and nothing otherwise. -/
theorem pngFindNeverFails : Obligations.PngFindNeverFails :=
  ⟨decodeCmd_encode .pngFind, fun _ => ⟨fun _ _ _ h4 ht hs hc hb =>
    exec_pngFind_of_firstMatch h4 ht (hs ▸ firstMatch_append hc hb), exec_pngFind_of_no_match⟩⟩

/-! ## CHUNK_READ (R201) -/

section Read
variable {s : State}

theorem exec_chunkRead_of_outside (h : s.store.length ≤ s.arg0.toNat) :
    exec .chunkRead s = .next (s.failedWith 12 s.arg0 (BitVec.ofNat 32 s.store.length) 0) := by
  have hnone := List.getElem?_eq_none h
  rcases exec_chunkRead_cases s with ⟨_, e⟩ | ⟨_, hc, _⟩ | ⟨_, hc, _⟩
  · exact e
  all_goals cases hnone.symm.trans hc

theorem exec_chunkRead_of_overflow {c : Chunk} (hc : s.store[s.arg0.toNat]? = some c)
    (ho : s.cfg.obufSize < c.payload.length + 12) :
    exec .chunkRead s = .next (s.failedWith 10 (BitVec.ofNat 32 (c.payload.length + 12))
      (BitVec.ofNat 32 s.cfg.obufSize) 0) := by
  rcases exec_chunkRead_cases s with ⟨h, _⟩ | ⟨_, hd, _, e⟩ | ⟨_, hd, h, _⟩
  · cases (List.getElem?_eq_none h).symm.trans hc
  · cases hc.symm.trans hd
    exact e
  · cases hc.symm.trans hd
    exact absurd ho (Nat.not_lt.2 h)

theorem exec_chunkRead_of_fits {c : Chunk} (hc : s.store[s.arg0.toNat]? = some c)
    (ho : c.payload.length + 12 ≤ s.cfg.obufSize) :
    exec .chunkRead s = .next ((s.writeOutput (chunkSerialize c)).producedChunk c).succeed := by
  rcases exec_chunkRead_cases s with ⟨h, _⟩ | ⟨_, hd, h, _⟩ | ⟨_, hd, _, e⟩
  · cases (List.getElem?_eq_none h).symm.trans hc
  · cases hc.symm.trans hd
    exact absurd h (Nat.not_lt.2 ho)
  · cases hc.symm.trans hd
    exact e

end Read

/-- Settles O24: the chunk at the index, if there is one, goes through the output check. -/
theorem chunkReadReadsTheStoredChunk : Obligations.ChunkReadReadsTheStoredChunk := by
  refine ⟨decodeCmd_encode .chunkRead, fun s => ⟨exec_chunkRead_of_outside, fun before c after hs hi => ?_⟩⟩
  have hc : s.store[s.arg0.toNat]? = some c := by simp [hs, hi]
  refine ⟨exec_chunkRead_of_overflow hc, fun ho => ⟨_, exec_chunkRead_of_fits hc ho, ?_, fun a => ?_⟩⟩
  · simp [State.completed, State.succeed, State.producedChunk, State.writeOutput, count]
  · rw [← chunkSerialize_length c]
    exact writeOutput_obufByte s _ a

/-! ## Append, find and remove (R203) -/

theorem countP_tag_eq_zero_iff {t : Tag} {l : List Chunk} :
    l.countP (fun c => decide (c.tag = t)) = 0 ↔ ∀ c ∈ l, c.tag ≠ t := by
  simp [List.countP_eq_zero]

/-- After a PNG_APPEND without an error, PNG_FIND looks among the chunks of before and the appended one at their end. -/
theorem exec_pngFind_after_pngAppend {s t : State} (h4 : s.tlen = 4) (h : exec .pngAppend s = .next t)
    (h0 : t.errCode = 0) {i : Nat}
    (hm : firstMatch (Tag.unpack s.arg0)
      (s.store ++ [chunkConstruct s.cfg.crcImpl (Tag.unpack s.arg0) s.input]) = some i) :
    exec .pngFind t = .next { t with found := true, index := BitVec.ofNat 32 i }.completed := by
  obtain ⟨ht, rfl⟩ := exec_pngAppend_of_errCode_zero h h0
  apply exec_pngFind_of_firstMatch
  exacts [h4, ht, hm]

/-- After the removal of the one chunk with the tag, no chunk has it. -/
theorem exec_pngFind_after_pngRemove {s t : State} (h4 : s.tlen = 4) (ht : (Tag.unpack s.arg0).letters = true)
    (h : exec .pngRemove s = .next t) (hone : s.store.countP (fun c => decide (c.tag = Tag.unpack s.arg0)) = 1) :
    t.store.length + 1 = s.store.length ∧
      exec .pngFind t = .next { t with found := false, index := 0xFFFFFFFF }.completed := by
  cases hm : firstMatch (Tag.unpack s.arg0) s.store with
  | none =>
    have hzero := countP_tag_eq_zero_iff.2 (firstMatch_eq_none.1 hm)
    omega
  | some i =>
    obtain ⟨before, c, after, hs, _, hc, hb⟩ := firstMatch_split hm
    cases h.symm.trans (exec_pngRemove_of_split h4 ht hs hc hb)
    have hrest : (before ++ after).countP (fun c => decide (c.tag = Tag.unpack s.arg0)) = 0 := by
      rw [hs, List.countP_append, List.countP_cons_of_pos (by simpa using hc)] at hone
      rw [List.countP_append]
      omega
    refine ⟨by simp [State.completed, hs]; omega, exec_pngFind_of_no_match (.inr (.inr ?_))⟩
    exact countP_tag_eq_zero_iff.1 hrest

/-- Settles O56: the first match in STORE with one chunk more at its end, or with its one match taken out. -/
theorem appendFindRemoveProperties : Obligations.AppendFindRemoveProperties := by
  refine ⟨fun s t _ h4 h h0 => ?_, fun s t h4 ht h => ⟨fun hone => ?_, fun hzero => ?_⟩⟩
  · cases hm : firstMatch (Tag.unpack s.arg0)
        (s.store ++ [chunkConstruct s.cfg.crcImpl (Tag.unpack s.arg0) s.input]) with
    | none => exact absurd rfl (firstMatch_eq_none.1 hm _ List.mem_concat_self)
    | some i =>
      refine ⟨_, exec_pngFind_after_pngAppend h4 h h0 hm, rfl, fun habsent => ?_, fun before c after hs hc hb => ?_⟩
      · cases hm.symm.trans (firstMatch_append rfl habsent)
        rfl
      · rw [hs, List.append_assoc, List.cons_append] at hm
        cases hm.symm.trans (firstMatch_append hc hb)
        rfl
  · obtain ⟨hlength, hfind⟩ := exec_pngFind_after_pngRemove h4 ht h hone
    exact ⟨hlength, _, hfind, rfl⟩
  · cases h.symm.trans (exec_pngRemove_of_absent h4 ht (countP_tag_eq_zero_iff.1 hzero))
    exact ⟨rfl, rfl⟩

end Sys2Proof.Machine
end

section
/-! PROOFS of 44_control: NOP (R230); its statement has PNG_CLEAR too (43_container R198). -/

namespace Sys2Proof.Machine

theorem exec_nop (s : State) : exec .nop s = .next s.completed := rfl

theorem exec_pngClear (s : State) : exec .pngClear s = .next { s with store := [] }.completed := rfl

/-- NCHUNKS counts the chunks of STORE (10_state R33). -/
theorem readReg_nchunks_of_nil {s : State} (h : s.store = []) : readReg s .nchunks = 0 := by
  rw [readReg, h]
  rfl

/-- Settles O11: both commands complete without an error, PNG_CLEAR after the one write of STORE. -/
theorem nopAndClearComplete : Obligations.NopAndClearComplete :=
  ⟨decodeCmd_encode .nop, decodeCmd_encode .pngClear, fun s =>
    ⟨exec_nop s, exec_pngClear s, readReg_nchunks_of_nil rfl⟩⟩

end Sys2Proof.Machine
end

section
/-! PROOFS of 60_exceptions: every step answers a next state (R240), the two completions of a command (R246, R247) with
the kinds each command raises (R241), a write against a completion (R253), and the interrupt output (R252). -/

namespace Sys2Proof.Machine

/-! ## No traps (R240) -/

@[simp] theorem complete_busy (s : State) (r : Except CmdError State) : (s.complete r).busy = false := by
  cases r <;> rfl

@[simp] theorem complete_done (s : State) (r : Except CmdError State) : (s.complete r).done = true := by
  cases r <;> rfl

/-- Every command completes (10_state R27). -/
theorem exec_completes {i : Instr} {s t : State} (h : exec i s = .next t) : t.busy = false ∧ t.done = true := by
  obtain ⟨r, e⟩ := exec_complete s i
  cases h.symm.trans e
  exact ⟨complete_busy s r, complete_done s r⟩

theorem step_next (s : State) : ∃ t, step s = .next t := by
  rcases step_cases s with ⟨_, e⟩ | ⟨_, e⟩ | ⟨_, _, e⟩ | ⟨i, _, _, _, e⟩ | ⟨_, _, _, _, e⟩
  · exact ⟨_, e⟩
  · exact ⟨_, e⟩
  · exact ⟨_, e⟩
  · obtain ⟨r, hr⟩ := exec_complete s.popTurn i
    exact ⟨_, e.trans hr⟩
  · exact ⟨_, e⟩

theorem run_next (n : Nat) (s : State) : RunsSafely s n := by
  induction n generalizing s with
  | zero => exact ⟨s, rfl⟩
  | succ n ih =>
    obtain ⟨t, ht⟩ := step_next s
    obtain ⟨u, hu⟩ := ih t
    exact ⟨u, (run_succ_of_step ht).trans hu⟩

/-- The engine's step completes the word in CMD, a command or an illegal word (10_state R27). -/
theorem step_completes {s t : State} (hb : s.busy = true) (ht : s.nextTurn = .engine) (h : step s = .next t) :
    t.busy = false ∧ t.done = true := by
  rw [step_of_engine hb ht] at h
  cases hd : decodeCmd s.cmd with
  | ok i => rw [hd] at h; exact exec_completes h
  | error r => rw [hd] at h; cases h; exact ⟨rfl, rfl⟩

/-- Settles O5: each kind of step answers a next state, so a run does by induction on its length; the engine's step ends
in a completion. -/
theorem everyStepAnswersANextState : Obligations.EveryStepAnswersANextState :=
  ⟨step_next, fun s n => run_next n s, fun _ _ => step_completes⟩

/-! ## The two completions of a command (R246, R247) and the kinds it raises (R241) -/

/-- The kinds that the decode of one chunk raises, in the order of its steps (42_chunk R164). -/
def chunkDecodeKinds : List ErrKind := [.truncatedInput, .invalidChunkLength, .invalidChunkCrc, .invalidTagBytes]

/-- The kinds whose "raised by" names the command (R241). -/
def raisedKinds : Instr → List ErrKind
  | .nop | .crcInit | .crcByte | .crcLoad | .pngClear | .pngFind | .softReset => []
  | .crcBuf => [.rangeError]
  | .tagBytes | .tagText => [.invalidTagBytes]
  | .chunkEncode => [.rangeError, .invalidTagBytes, .outputOverflow]
  | .chunkDecode => .rangeError :: chunkDecodeKinds
  | .pngParse => .rangeError :: .invalidSignature :: chunkDecodeKinds ++ [.storeFull]
  | .pngSerialize => [.outputOverflow]
  | .pngAppend => [.rangeError, .invalidTagBytes, .storeFull]
  | .pngRemove => [.invalidTagBytes, .chunkNotFound]
  | .chunkRead => [.indexRange, .outputOverflow]

theorem chunkDecode_error_kind {impl : CrcImpl} {s : List Byte} {e : CmdError} (h : chunkDecode impl s = .error e) :
    e.kind ∈ chunkDecodeKinds := by
  rcases chunkDecode_cases impl s with ⟨_, e'⟩ | ⟨_, _, e'⟩ | ⟨_, _, e'⟩ | ⟨_, _, _, e'⟩ |
    ⟨_, _, _, ⟨_, _, e'⟩ | ⟨_, e'⟩⟩ <;> cases h.symm.trans e' <;> exact List.mem_of_elem_eq_true rfl

/-- The parse loop raises what a decode raises, or StoreFull (43_container R192). -/
theorem parseChunks_error_kind {cfg : Config} {fuel : Nat} {rest : List Byte} {p : Nat} {out : List Chunk} {bytes : Nat}
    {e : CmdError} (h : parseChunks cfg fuel rest p out bytes = .error e) :
    e.kind ∈ chunkDecodeKinds ++ [.storeFull] := by
  induction fuel generalizing rest p out bytes with
  | zero => cases rest <;> cases h
  | succ fuel ih =>
    cases rest with
    | nil => cases h
    | cons b bs =>
      rw [parseChunks] at h
      cases hd : chunkDecode cfg.crcImpl (slice (b :: bs) 0 (cutLength (b :: bs))) with
      | error e' =>
        simp only [hd] at h
        cases h
        have hk : e'.kind ∈ chunkDecodeKinds := chunkDecode_error_kind hd
        exact List.mem_append_left _ hk
      | ok c =>
        simp only [hd] at h
        split at h
        · exact ih h
        · cases h; exact List.mem_concat_self

theorem containerParse_error_kind {cfg : Config} {s : List Byte} {e : CmdError} (h : containerParse cfg s = .error e) :
    e.kind ∈ .invalidSignature :: chunkDecodeKinds ++ [.storeFull] := by
  rw [containerParse] at h
  split at h
  · cases h; exact List.mem_cons_self
  · exact List.mem_cons_of_mem _ (parseChunks_error_kind h)

/-- The results `u` of a command over the state `s` at issue leave the ERR registers (R247) and IRQ_EN (R252). -/
structure State.KeepsErrAndIrqEn (s u : State) : Prop where
  errInfo0 : u.errInfo0 = s.errInfo0
  errInfo1 : u.errInfo1 = s.errInfo1
  errPos : u.errPos = s.errPos
  irqEn : u.irqEn = s.irqEn

/-- The two completions of a command from the state at issue: the report of an error of one of its kinds (R246), or
results that leave the ERR registers and IRQ_EN (R247). SOFT_RESET's results are the reset registers (44_control R231). -/
inductive Completion (i : Instr) (s : State) : Prop
  | error (e : CmdError) (h : exec i s = .next (s.raise e)) (hk : e.kind ∈ raisedKinds i := by simp [raisedKinds])
  | success (u : State) (h : exec i s = .next u.succeed)
      (hu : i ≠ .softReset → s.KeepsErrAndIrqEn u := by exact fun _ => ⟨rfl, rfl, rfl, rfl⟩)

theorem exec_completion (i : Instr) (s : State) : Completion i s := by
  cases i with
  | nop | crcInit | crcByte | crcLoad | pngClear => exact .success _ rfl
  | softReset => exact .success _ rfl fun h => absurd rfl h
  | crcBuf =>
    rcases exec_crcBuf_cases s with ⟨_, e⟩ | ⟨_, e⟩
    exacts [.error _ e, .success _ e]
  | tagBytes =>
    rcases exec_tagBytes_cases s with ⟨_, _, e⟩ | ⟨_, e⟩
    exacts [.error _ e, .success _ e]
  | tagText =>
    rcases exec_tagText_cases s with ⟨_, e⟩ | ⟨_, _, _, e⟩ | ⟨_, _, e⟩
    exacts [.error _ e, .error _ e, .success _ e]
  | chunkEncode =>
    rcases exec_chunkEncode_cases s with ⟨_, e⟩ | ⟨_, _, _, e⟩ | ⟨_, _, _, e⟩ | ⟨_, _, _, e⟩
    exacts [.error _ e, .error _ e, .error _ e, .success _ e]
  | chunkDecode =>
    rcases exec_chunkDecode_cases s with ⟨_, e⟩ | ⟨_, _, hd, e⟩ | ⟨_, _, _, e⟩
    exacts [.error _ e, .error _ e (List.mem_cons_of_mem _ (chunkDecode_error_kind hd)), .success _ e]
  | pngParse =>
    rcases exec_pngParse_cases s with ⟨_, e⟩ | ⟨_, _, hp, e⟩ | ⟨_, _, _, e⟩
    exacts [.error _ e, .error _ e (List.mem_cons_of_mem _ (containerParse_error_kind hp)), .success _ e]
  | pngSerialize =>
    rcases exec_pngSerialize_cases s with ⟨_, e⟩ | ⟨_, e⟩
    exacts [.error _ e, .success _ e]
  | pngAppend =>
    rcases exec_pngAppend_cases s with ⟨_, e⟩ | ⟨_, _, _, e⟩ | ⟨_, _, _, e⟩ | ⟨_, _, _, _, e⟩
    exacts [.error _ e, .error _ e, .error _ e, .success _ e]
  | pngRemove =>
    rcases exec_pngRemove_cases s with ⟨_, e⟩ | ⟨_, _, _, e⟩ | ⟨_, _, _, e⟩ | ⟨_, _, _, _, e⟩
    exacts [.error _ e, .error _ e, .error _ e, .success _ e]
  | pngFind =>
    rcases exec_pngFind_cases s with ⟨_, _, e⟩ | ⟨_, e⟩
    exacts [.success _ e, .success _ e]
  | chunkRead =>
    rcases exec_chunkRead_cases s with ⟨_, e⟩ | ⟨_, _, _, e⟩ | ⟨_, _, _, e⟩
    exacts [.error _ e, .error _ e, .success _ e]

/-- Settles O25: an error's completion is its report over the state at issue, and a success has ERRCODE = 0. -/
theorem errorWritesOnlyTheReport : Obligations.ErrorWritesOnlyTheReport := by
  intro i s t h hne
  cases exec_completion i s with
  | error e he _ => cases h.symm.trans he; rfl
  | success u he _ => cases h.symm.trans he; exact absurd rfl hne

/-- Settles O26: ERRCODE = 0 is no error's, and the results of a success leave the ERR registers. -/
theorem successLeavesTheErrorRegisters : Obligations.SuccessLeavesTheErrorRegisters := by
  intro i s t hi h h0
  cases exec_completion i s with
  | error e he _ =>
    cases h.symm.trans he
    exact absurd h0 (raise_errCode_ne_zero s e)
  | success u he hu =>
    cases h.symm.trans he
    obtain ⟨hinfo0, hinfo1, hpos, _⟩ := hu hi
    exact ⟨rfl, rfl, hinfo0, hinfo1, hpos⟩

/-- A command's ERRCODE is 0 or the code of a kind it raises (R241). -/
theorem exec_errCode_mem {i : Instr} {s t : State} (h : exec i s = .next t) :
    t.errCode ∈ 0 :: (raisedKinds i).map ErrKind.code := by
  cases exec_completion i s with
  | error e he hk =>
    cases h.symm.trans he
    exact List.mem_cons_of_mem _ (List.mem_map_of_mem hk)
  | success u he _ =>
    cases h.symm.trans he
    exact List.mem_cons_self

/-- Settles O27: the lists are 0 and the codes of the kinds a command raises. -/
theorem eachCommandRaisesOnlyItsKinds : Obligations.EachCommandRaisesOnlyItsKinds := by
  intro i s t h
  have hmem := exec_errCode_mem h
  cases i <;> exact hmem

/-! ## A write that arrives together with a completion (R253) -/

section HostWrite
variable {s : State} {r : Reg} {v : Word} {rest : List HostOp} {turns : List Turn}

/-- With the host to move, a step does the host's write. -/
theorem step_hostWrite {wd : Width} {a : Nat} (ht : s.turns = .host :: turns) (hh : s.host = .write wd a v :: rest) :
    step s = .next ({ s with turns := turns, host := rest }.busWrite wd a v) := by
  have hnext : s.nextTurn = .host := by rw [State.nextTurn, ht]
  have hpop : s.popTurn = { s with turns := turns } := by rw [State.popTurn, ht, List.tail_cons]
  simp only [step, turnStep, hnext, hpop, State.hostTurn, hh]

theorem step_hostWrite_reg_busy (hl : s.cfg.legal = true) (hb : s.busy = true) (ht : s.turns = .host :: turns)
    (hh : s.host = .write .w32 (s.cfg.base + r.offset) v :: rest) :
    step s = .next { s with turns := turns, host := rest, ovr := true } := by
  rw [step_hostWrite ht hh]
  exact congrArg _ (busWrite_offset_busy (s := { s with turns := turns, host := rest }) hl hb r v)

theorem step_hostWrite_reg_idle (hl : s.cfg.legal = true) (hb : s.busy = false) (ht : s.turns = .host :: turns)
    (hh : s.host = .write .w32 (s.cfg.base + r.offset) v :: rest) :
    step s = .next ({ s with turns := turns, host := rest }.writeReg r v) := by
  rw [step_hostWrite ht hh]
  exact congrArg _ (busWrite_offset (s := { s with turns := turns, host := rest }) hl hb r v)

/-- With a NOP in flight and the engine to move, a step completes it. -/
theorem step_nop (hb : s.busy = true) (hd : decodeCmd s.cmd = .ok .nop) (ht : s.turns = .engine :: turns) :
    step s = .next { s with turns := turns }.completed := by
  rw [step_of_decode hb (nextTurn_of_engine hb (.inr ⟨turns, ht⟩)) hd, exec_nop, State.popTurn, ht, List.tail_cons]

end HostWrite

/-- A run of two steps. -/
theorem run_two_of_step {s t u : State} (h : step s = .next t) (h' : step t = .next u) :
    Sys2Proof.core.run 2 s = .next u :=
  (run_succ_of_step h).trans (run_succ_of_step h')

/-- Settles O7: the write finds BUSY = 1 in one order, and in the other the BUSY = 0 that the completion left. -/
theorem bothOrdersOfWriteAndCompletion : Obligations.BothOrdersOfWriteAndCompletion := by
  intro s v rest hl hb hd hh
  have hwrite : s.host = .write .w32 (s.cfg.base + Reg.arg0.offset) v :: rest := hh
  constructor
  · exact run_two_of_step (step_hostWrite_reg_busy hl hb rfl hwrite) (step_nop hb hd rfl)
  · exact run_two_of_step (step_nop hb hd rfl)
      (step_hostWrite_reg_idle (s := { s with turns := [.host] }.completed) hl rfl rfl hwrite)

/-! ## The interrupt output (R252) -/

/-- A command other than SOFT_RESET keeps IRQ_EN. -/
theorem exec_irqEn {i : Instr} {s t : State} (hi : i ≠ .softReset) (h : exec i s = .next t) : t.irqEn = s.irqEn := by
  cases exec_completion i s with
  | error e he _ => cases h.symm.trans he; rfl
  | success u he hu => cases h.symm.trans he; exact (hu hi).irqEn

theorem irq_eq_true_iff (s : State) : s.irq = true ↔ s.irqEn = true ∧ s.done = true := Bool.and_eq_true_iff

theorem irq_of_done_false {s : State} (h : s.done = false) : s.irq = false := by rw [State.irq, h, Bool.and_false]

/-- Settles O36: a completion sets DONE and keeps IRQ_EN; what lowers the output clears DONE or IRQ_EN. -/
theorem interruptFollowsEnableAndDone : Obligations.InterruptFollowsEnableAndDone := by
  refine ⟨irq_eq_true_iff, fun i s t hi h => ?_, fun s t h => ?_, fun s w => ⟨irq_of_done_false rfl, rfl⟩,
    fun s v hv => irq_of_done_false ?_, fun s v hv hdone => (irq_eq_true_iff _).2 ⟨hv, hdone⟩⟩
  · rw [State.irq, (exec_completes h).2, exec_irqEn hi h, Bool.and_true]
  · cases h; rfl
  · rw [State.writeReg, writeStatus_done, hv, Bool.not_true, Bool.and_false]

end Sys2Proof.Machine
end

section
/-! PROOFS of 70_reset_and_hazards: the two resets (R270, R272), reads while BUSY = 1 (R282), what a command leaves of the
buffers (R284), and that BUSY falls within the schedule (R290). -/

namespace Sys2Proof.Machine

variable {s t : State}

/-! ## BUSY falls (R290) -/

theorem step_of_host (h : s.nextTurn = .host) : step s = .next s.popTurn.hostTurn := by
  rw [step, turnStep, h]

theorem step_of_reset (h : s.nextTurn = .reset) : step s = .next s.popTurn.hwReset := by
  rw [step, turnStep, h]

/-- With a command in flight and the engine to move, one step completes it. -/
theorem run_one_completes (hb : s.busy = true) (he : s.nextTurn = .engine) :
    ∃ t, Sys2Proof.core.run 1 s = .next t ∧ t.busy = false ∧ t.done = true := by
  obtain ⟨t, ht⟩ := step_next s
  exact ⟨t, run_succ_of_step ht, step_completes hb he ht⟩

/-- Settles O6, by induction on the scheduled turns: a host turn keeps the command in flight and leaves one turn fewer; the
engine's turn, or the end of the schedule, completes the command; a reset abandons it. -/
theorem busyFallsWithinTheSchedule : Obligations.BusyFallsWithinTheSchedule := by
  intro s hb
  induction hs : s.turns generalizing s with
  | nil =>
    obtain ⟨t, hrun, hbusy, hdone⟩ := run_one_completes hb (nextTurn_of_engine hb (.inl hs))
    exact ⟨1, t, Nat.le_refl 1, hrun, hbusy, fun _ => hdone⟩
  | cons turn rest ih =>
    have hnext : s.nextTurn = turn := by rw [State.nextTurn, hs]
    cases turn with
    | engine =>
      obtain ⟨t, hrun, hbusy, hdone⟩ := run_one_completes hb hnext
      exact ⟨1, t, Nat.le_add_left 1 _, hrun, hbusy, fun _ => hdone⟩
    | reset =>
      exact ⟨1, _, Nat.le_add_left 1 _, run_succ_of_step (step_of_reset hnext), rfl,
        fun h => absurd List.mem_cons_self h⟩
    | host =>
      obtain ⟨hbusy, _, hturns⟩ := hostTurn_busy (s := s.popTurn) hb
      rw [popTurn_turns, hs, List.tail_cons] at hturns
      obtain ⟨n, t, hn, hrun, hfalls, hdone⟩ := ih _ hbusy hturns
      exact ⟨n + 1, t, Nat.succ_le_succ hn, (run_succ_of_step (step_of_host hnext)).trans hrun, hfalls,
        fun h => hdone fun hmem => h (List.mem_cons_of_mem _ hmem)⟩

/-! ## The buffers under a command (R284) -/

theorem ibufByte_congr (hi : t.ibuf = s.ibuf) (hr : t.resets = s.resets) (a : Nat) : t.ibufByte a = s.ibufByte a := by
  rw [State.ibufByte, State.ibufByte, hi, hr]

theorem obufByte_congr (ho : t.obuf = s.obuf) (hr : t.resets = s.resets) (a : Nat) : t.obufByte a = s.obufByte a := by
  rw [State.obufByte, State.obufByte, ho, hr]

/-- No command writes IBUF, and none draws new free bytes: SOFT_RESET is no hardware reset (R271, R272). -/
theorem exec_ibuf_resets {i : Instr} (h : exec i s = .next t) : t.ibuf = s.ibuf ∧ t.resets = s.resets := by
  have hframe := eachCommandWritesOnlyWhatItsRuleNames i s t h
  cases i with
  | softReset => cases h; exact ⟨rfl, rfl⟩
  | _ => exact ⟨(congrArg State.ibuf hframe :), (congrArg State.resets hframe :)⟩

/-- What a command does to OBUF: nothing, or one of the three storing commands completes without an error and writes an
output that fits (30_encoding R100). -/
theorem exec_obuf_cases {i : Instr} (h : exec i s = .next t) :
    t.obuf = s.obuf ∨
    (i ∈ [Instr.chunkEncode, .pngSerialize, .chunkRead] ∧ t.errCode = 0 ∧
      ∃ out, out.length ≤ s.cfg.obufSize ∧ t.obuf = (s.writeOutput out).obuf ∧ t.outLen = count out.length) := by
  have hframe := eachCommandWritesOnlyWhatItsRuleNames i s t h
  cases i with
  | chunkEncode =>
    rcases exec_chunkEncode_cases s with ⟨_, e⟩ | ⟨_, _, _, e⟩ | ⟨_, _, _, e⟩ | ⟨_, _, ho, e⟩ <;> cases h.symm.trans e
    · exact .inl rfl
    · exact .inl rfl
    · exact .inl rfl
    · exact .inr ⟨by decide, rfl, _, by simpa [chunkConstruct] using ho, rfl, rfl⟩
  | pngSerialize =>
    rcases exec_pngSerialize_cases s with ⟨_, e⟩ | ⟨ho, e⟩ <;> cases h.symm.trans e
    · exact .inl rfl
    · exact .inr ⟨by decide, rfl, _, ho, rfl, rfl⟩
  | chunkRead =>
    rcases exec_chunkRead_cases s with ⟨_, e⟩ | ⟨_, _, _, e⟩ | ⟨_, _, ho, e⟩ <;> cases h.symm.trans e
    · exact .inl rfl
    · exact .inl rfl
    · exact .inr ⟨by decide, rfl, _, by simpa using ho, rfl, rfl⟩
  | softReset => obtain ⟨_, hobuf, _⟩ := hframe; exact .inl hobuf
  | _ => exact .inl (congrArg State.obuf hframe :)

/-- Settles O29: an output fits in OBUF, so OUT_LEN is its exact length, and its bytes end there. -/
theorem bufferBytesKeptOutsideTheOutput : Obligations.BufferBytesKeptOutsideTheOutput := by
  intro i s t hl h
  obtain ⟨hibuf, hresets⟩ := exec_ibuf_resets h
  refine ⟨ibufByte_congr hibuf hresets, ?_⟩
  rcases exec_obuf_cases h with hobuf | ⟨hi, h0, out, hfits, hobuf, hlen⟩
  · have hkeep := obufByte_congr hobuf hresets
    exact ⟨fun _ _ _ => hkeep, fun _ => hkeep, fun a _ => hkeep a⟩
  · refine ⟨fun h1 h2 h3 => ?_, fun hne => absurd h0 hne, fun a ha => ?_⟩
    · simp [h1, h2, h3] at hi
    · obtain ⟨_, _, _, _, _, _, _, hsize, _⟩ := legal_facts hl
      rw [hlen, count_toNat (by omega)] at ha
      calc t.obufByte a = (s.writeOutput out).obufByte a := obufByte_congr hobuf hresets a
        _ = s.obufByte a := by rw [writeOutput_obufByte, if_neg (Nat.not_lt.2 ha)]

/-! ## Reads, idle and while BUSY (R282) -/

theorem readableBusy_iff (r : Reg) :
    r.readableBusy = true ↔ r ∈ [Reg.id, .ctrl, .status, .cmd, .arg0, .tlen, .ioff, .ilen] := by
  cases r <;> decide

/-- A read of one byte returns it zero-extended (20_memory R67). -/
theorem busRead_w8 {a : Nat} (ht : touchesBlock s.cfg .w8 a = true) :
    s.busRead .w8 a = (s.busReadByte a).setWidth 32 := by
  have hr : isRegAccess s.cfg .w8 a = false := isRegAccess_false_of_malformed (.inl (by decide))
  rw [State.busRead, hr, if_neg Bool.false_ne_true, if_pos ht]
  simp [accessAddrs, Width.bytes, leWord]

theorem accessCovers_w8 {lo size x : Nat} (hx : x < size) : AccessCovers lo size .w8 (lo + x) :=
  ⟨0, Nat.one_pos, x, hx, rfl⟩

/-- Settles O46: a register read by the list of those readable while BUSY, a buffer byte by the window it is in. -/
theorem registerReadsIdleAndBusy : Obligations.RegisterReadsIdleAndBusy := by
  intro s r hl
  refine ⟨?_, fun x hx => ?_, fun x hx => ?_⟩
  · rw [busRead_offset hl]
    simp only [Bool.and_eq_true, Bool.not_eq_true', ← Bool.not_eq_true, readableBusy_iff]
  · rw [busRead_w8 ((touchesBlock_iff _ _ _).2 (.inr (.inl (accessCovers_w8 hx)))), busReadByte_ibuf hx]
  · rw [busRead_w8 ((touchesBlock_iff _ _ _).2 (.inr (.inr (accessCovers_w8 hx)))), busReadByte_obuf hl hx]

/-! ## The two resets (R270, R272) -/

/-- Settles O9: a hardware reset sets every field but those named to its value of `State.reset`. -/
theorem resetStateIsAHardwareReset : Obligations.ResetStateIsAHardwareReset :=
  fun _ => ⟨rfl, step_of_reset⟩

/-- STATUS after a completion without an error and with no overrun recorded (10_state R24). -/
theorem readReg_status_of_completed (hb : s.busy = false) (hd : s.done = true) (ho : s.ovr = false) (he : s.errCode = 0) :
    readReg s .status = 0x00000002 := by
  simp [readReg, State.statusWord, State.err, hb, hd, ho, he]

/-- Settles O10: the completion's state is that of the reset registers with DONE set; a buffer byte depends on the memories
and the reset count alone. -/
theorem softResetEqualsHardwareResetButForThree : Obligations.SoftResetEqualsHardwareResetButForThree :=
  ⟨decodeCmd_encode .softReset, fun _ =>
    ⟨_, rfl, rfl, readReg_status_of_completed rfl rfl rfl rfl, rfl, fun _ => ⟨rfl, rfl⟩⟩⟩

end Sys2Proof.Machine
end
